-- ==== Sys2Proof/Word.lean ====
section
/-! DEFINITION. The widths of the blackmoon-servo timer/serial core (BSC): bytes, 16-bit
quantities and 32-bit command and result words (spec/00_scope.md R10, R12; spec/30_encoding.md
R100, R108). No value of the BSC is signed, so nothing here sign-extends. -/

namespace Sys2Proof

/-- A byte: UART data, ring-buffer data, `parameterId`, an `A` operand (R10, R100). -/
abbrev Byte := BitVec 8

/-- A 16-bit unsigned quantity: `period`, `elapsed`, `cb`, `value`, an `IMM` operand (R10, R100). -/
abbrev Half := BitVec 16

/-- A 32-bit command word or result word (R100, R108). -/
abbrev Word := BitVec 32

end Sys2Proof
end

