-- ==== Sys2Proof/Config.lean ====
section
/-! DEFINITION. The implementation parameters of spec/00_scope.md R9. A parameter with a value
in that table is a definition; a parameter marked OPEN has no value here. The OPEN parameters
the rules read are bundled in `Params`, which every state carries unchanged, so that a statement
about every state is a statement about every value in the stated range. The values the one
machine of `State.reset` is built with are the opaque constant `Config.params`: nothing in Lean
can evaluate it. -/

namespace Sys2Proof
namespace Config

/-- `TIMER_SLOTS` = 5 (R9). -/
abbrev timerSlots : Nat := 5

/-- `START_BYTE` = 0x30 (R9, R11). -/
def startByte : Byte := 0x30

/-- `END_BYTE` = 0x35 (R9, R11). -/
def endByte : Byte := 0x35

/-- `FRAME_LEN` = 5 bytes (R9, R120). -/
def frameLen : Nat := 5

/-- `RX_RESET_ATOMIC` = true (R9, R82): popping a staged byte, testing for drained and
resetting both cursors are one step. `Machine.State.popRx` is that one step. -/
def rxResetAtomic : Bool := true

/-- The two orders `IRQ_PRIORITY_ORDER` chooses between: which interrupt level is higher (R9, R306). -/
inductive IrqPriority where
  | rxiHigher
  | tkiHigher
deriving DecidableEq, Repr, Inhabited

/-- `IRQ_PRIORITY_ORDER`: OPEN, and no rule depends on it (R9, R306). -/
opaque irqPriorityOrder : IrqPriority

/-- `TICK_INTERVAL`: OPEN, and no rule depends on it (R9, R313). -/
opaque tickInterval : Nat

end Config

/-- A value of `ADDR`, the OPEN type of storage addresses (R9, R78, R124). The BSC computes
nothing from an address: it hands out the one `PARAM_MAP` gives. DESIGN CHOICE (log entry 3):
at most 256 addresses are ever used, so numbers can stand for any address type. -/
abbrev StorageAddr := Nat

/-- A buffer capacity in bytes, 1..65535: the range of `TXBUFFER_SIZE` and `RXBUFFER_SIZE` (R9).
The field defaults only show the type is inhabited, which an opaque constant needs. -/
structure Capacity where
  size : Nat := 1
  pos : 1 ≤ size := by decide
  le_max : size ≤ 65535 := by decide
deriving DecidableEq, Repr, Inhabited

/-- `PARAM_MAP`: a partial map from parameterId to a storage address, injective on its domain,
with 0x01 in its domain (R9, R124). The field defaults only show the type is inhabited. -/
structure ParamMap where
  entries : List (Byte × StorageAddr) := [(0x01, 0)]
  ids_distinct : (entries.map Prod.fst).Nodup := by decide
  addrs_distinct : (entries.map Prod.snd).Nodup := by decide
  knows_one : (0x01 : Byte) ∈ entries.map Prod.fst := by decide
deriving DecidableEq, Repr, Inhabited

/-- The OPEN parameters that the rules of the BSC read (R9). Fixed when the block is built. -/
structure Params where
  /-- `TXBUFFER_SIZE`, the capacity of the transmit Ring Buffer. -/
  txBuffer : Capacity
  /-- `RXBUFFER_SIZE`, the capacity of the Receive Staging Buffer. -/
  rxBuffer : Capacity
  /-- `PARAM_MAP`. -/
  paramMap : ParamMap
deriving DecidableEq, Repr, Inhabited

namespace Config

/-- The OPEN parameters of the machine of `State.reset`: any values in the ranges of R9, and
nothing can be proved about which (log entry 2). -/
opaque params : Params

/-- The level of the input `TX_READY` when a run starts: "any value, an input" (R44, R314; I17). -/
opaque txReadyAtStart : Bool

end Config
end Sys2Proof
end

