-- ==== Sys2Proof/Syntax.lean ====
section
/-! DEFINITION. The commands of the BSC: one constructor per row of spec/opcode_table.json, the
21 command words of R104 and the wire frame of R120; the packets they arrive as; the
pseudo-instructions of R112. -/

namespace Sys2Proof

/-- One constructor per row of spec/opcode_table.json. Operands have the widths of R100 and
R101; a command with a payload is the pair of its word's length and its bytes (R103). -/
inductive Instr where
  /-- `TMR.CREATE`, R170 -/
  | tmrCreate (token : Half)
  /-- `TMR.SETP`, R172 -/
  | tmrSetp (slot : Byte) (period : Half)
  /-- `TMR.START`, R174 -/
  | tmrStart (slot : Byte) (ar : Bool)
  /-- `TMR.STOP`, R176 -/
  | tmrStop (slot : Byte)
  /-- `TMR.TICK`, R178 -/
  | tmrTick
  /-- `TMR.DISPATCH`, R180 -/
  | tmrDispatch
  /-- `TMR.CBRET`, R184 -/
  | tmrCbret
  /-- `RB.INIT`, R141 -/
  | rbInit
  /-- `RB.ISEMPTY`, R142 -/
  | rbIsempty
  /-- `RB.FREE`, R143 -/
  | rbFree
  /-- `RB.ADD`, R144 -/
  | rbAdd (length : Half) (payload : List Byte)
  /-- `RB.PEEK`, R145 -/
  | rbPeek
  /-- `RB.REMOVE`, R146 -/
  | rbRemove (count : Half)
  /-- `RX.BYTE`, R210 -/
  | rxByte (b : Byte)
  /-- `RX.READ`, R213 -/
  | rxRead
  /-- `PRS.BYTE`, R215 -/
  | prsByte (b : Byte)
  /-- `RX.PARSE`, R221 -/
  | rxParse
  /-- `TX.SEND`, R251 -/
  | txSend (length : Half) (payload : List Byte)
  /-- `TX.PACKET`, R252 -/
  | txPacket (parameterId : Byte) (value : Half)
  /-- `TX.BYTE`, R253 -/
  | txByte (b : Byte)
  /-- `TX.DRAIN`, R255 -/
  | txDrain
  /-- `FRAME`, R120: not a command word; the five bytes of one frame arriving on the wire -/
  | frame (parameterId : Byte) (value : Half)
deriving DecidableEq, Repr

/-- What carries an instruction to the BSC: a 32-bit command word with its payload bytes (R100,
R103), or the 40 bits of five bytes on the wire, first byte in bits 39:32 (R120). -/
inductive Packet where
  | command (cw : Word) (payload : List Byte)
  | wire (bits : BitVec 40)
deriving DecidableEq, Repr

/-- Why a packet is no instruction. -/
inductive DecodeError where
  /-- `OP` is not in the table of R104 (R105, first condition). -/
  | undefinedOpcode
  /-- A field that R104 marks 0 is not zero (R105, second condition). -/
  | reservedNotZero
  /-- The byte list does not have the length the word calls for (R103, R107; I16). -/
  | payloadMismatch
  /-- The first or the last byte on the wire is not the frame's (R120, R122). -/
  | notAFrame
deriving DecidableEq, Repr

/-- The pseudo-instructions of R112. -/
inductive Pseudo where
  | loop
  | tmrArm (slot : Byte) (period : Half) (ar : Bool)
deriving DecidableEq, Repr

end Sys2Proof
end

