-- ==== Sys2Proof/WellFormed.lean ====
section
/-! DEFINITION. Well-formed instructions. Every operand has exactly its field's width, so the
only check left is the one R103 makes on a command with a payload: the byte list has exactly
`IMM` bytes. -/

namespace Sys2Proof

/-- The pair (`cw`, byte list) is well formed: the list has exactly `length = IMM` bytes (R103). -/
def payloadFits (length : Half) (payload : List Byte) : Bool :=
  payload.length == length.toNat

/-- The well-formedness of R103, for every instruction. -/
def Instr.wellFormed : Instr → Bool
  | .tmrCreate _ => true
  | .tmrSetp _ _ => true
  | .tmrStart _ _ => true
  | .tmrStop _ => true
  | .tmrTick => true
  | .tmrDispatch => true
  | .tmrCbret => true
  | .rbInit => true
  | .rbIsempty => true
  | .rbFree => true
  | .rbAdd length payload => payloadFits length payload
  | .rbPeek => true
  | .rbRemove _ => true
  | .rxByte _ => true
  | .rxRead => true
  | .prsByte _ => true
  | .rxParse => true
  | .txSend length payload => payloadFits length payload
  | .txPacket _ _ => true
  | .txByte _ => true
  | .txDrain => true
  | .frame _ _ => true

end Sys2Proof
end

