-- ==== Sys2Proof/Decode.lean ====
section
/-! DEFINITION. The encoding of spec/30_encoding.md: the command word's fields (R100, R101), the
opcode map and the illegal words (R104, R105, R107), the wire frame (R120 to R122), the decoder
and, after it, the encoder; the expansion and the assembler syntax of R111 and R112. -/

namespace Sys2Proof

/-! ### Fields of the command word (R100) -/

/-- `OP = cw[31:24]`. -/
def opOf (cw : Word) : Byte := cw.extractLsb' 24 8

/-- `A = cw[23:16]`: a slot index, a data byte or a parameterId (R101). -/
def aOf (cw : Word) : Byte := cw.extractLsb' 16 8

/-- `IMM = cw[15:0]`: a period, value, token, count or length (R101). -/
def immOf (cw : Word) : Half := cw.extractLsb' 0 16

/-- `OP ‖ A ‖ IMM`, the one format `CMD32` (R100). -/
def cmd32 (op a : Byte) (imm : Half) : Word := op ++ a ++ imm

/-- `zext16` of the one-bit operand `ar = IMM[0]` (R101, R111). -/
def arImm (ar : Bool) : Half := if ar then 1 else 0

/-! ### The wire frame (R120, R121) -/

/-- `value[15:8]`, the byte of `value` that crosses the wire first (R71, R120). -/
def highByte (value : Half) : Byte := value.extractLsb' 8 8

/-- `value[7:0]` (R71, R120). -/
def lowByte (value : Half) : Byte := value.extractLsb' 0 8

/-- `value[15:8] = byte2` and `value[7:0] = byte3` (R121). -/
def joinBytes (high low : Byte) : Half := high ++ low

/-- The five bytes of a frame in the order they cross the wire (R120). -/
def frameBytes (parameterId : Byte) (value : Half) : List Byte :=
  [Config.startByte, parameterId, highByte value, lowByte value, Config.endByte]

/-- The byte that crosses the wire `k` places after the first: byte 0 is in bits 39:32 (R120). -/
def wireByte (bits : BitVec 40) (k : Nat) : Byte := bits.extractLsb' (8 * (4 - k)) 8

/-- The five bytes on the wire, first byte first (R120). -/
def wireBytes (bits : BitVec 40) : List Byte :=
  [wireByte bits 0, wireByte bits 1, wireByte bits 2, wireByte bits 3, wireByte bits 4]

/-- The frame as the 40-bit pattern of R120. -/
def frameBits (parameterId : Byte) (value : Half) : BitVec 40 :=
  Config.startByte ++ parameterId ++ highByte value ++ lowByte value ++ Config.endByte

/-! ### The decoder -/

/-- How many payload bytes follow a command word: only `OP` 0x13 and 0x28 carry a payload, of
`IMM` bytes (R103, R107). -/
def payloadLength (cw : Word) : Nat :=
  if opOf cw = 0x13 ∨ opOf cw = 0x28 then (immOf cw).toNat else 0

/-- An instruction whose reserved fields must be zero (R105). -/
def ifReserved (reservedZero : Bool) (i : Instr) : Except DecodeError Instr :=
  if reservedZero then .ok i else .error .reservedNotZero

/-- The opcode map of R104 with the reserved fields of R105. The byte list is the payload. -/
def decodeCommand (cw : Word) (payload : List Byte) : Except DecodeError Instr :=
  let a := aOf cw
  let imm := immOf cw
  match (opOf cw).toNat with
  | 0x01 => ifReserved (a == 0) (.tmrCreate imm)
  | 0x02 => ifReserved true (.tmrSetp a imm)
  | 0x03 => ifReserved (imm.extractLsb' 1 15 == 0) (.tmrStart a (imm.getLsbD 0))
  | 0x04 => ifReserved (imm == 0) (.tmrStop a)
  | 0x05 => ifReserved (a == 0 && imm == 0) .tmrTick
  | 0x06 => ifReserved (a == 0 && imm == 0) .tmrDispatch
  | 0x07 => ifReserved (a == 0 && imm == 0) .tmrCbret
  | 0x10 => ifReserved (a == 0 && imm == 0) .rbInit
  | 0x11 => ifReserved (a == 0 && imm == 0) .rbIsempty
  | 0x12 => ifReserved (a == 0 && imm == 0) .rbFree
  | 0x13 => ifReserved (a == 0) (.rbAdd imm payload)
  | 0x14 => ifReserved (a == 0 && imm == 0) .rbPeek
  | 0x15 => ifReserved (a == 0) (.rbRemove imm)
  | 0x20 => ifReserved (imm == 0) (.rxByte a)
  | 0x21 => ifReserved (a == 0 && imm == 0) .rxRead
  | 0x22 => ifReserved (imm == 0) (.prsByte a)
  | 0x23 => ifReserved (a == 0 && imm == 0) .rxParse
  | 0x28 => ifReserved (a == 0) (.txSend imm payload)
  | 0x29 => ifReserved true (.txPacket a imm)
  | 0x2A => ifReserved (imm == 0) (.txByte a)
  | 0x2B => ifReserved (a == 0 && imm == 0) .txDrain
  | _ => .error .undefinedOpcode

/-- The 40-bit pattern of R120, with the fields of R121. Bytes 1 to 3 may take any value. -/
def decodeWire (bits : BitVec 40) : Except DecodeError Instr :=
  if wireByte bits 0 = Config.startByte ∧ wireByte bits 4 = Config.endByte then
    .ok (.frame (wireByte bits 1) (joinBytes (wireByte bits 2) (wireByte bits 3)))
  else .error .notAFrame

/-- The decoder, total on every packet. The pair of a word and a byte list is refused when the
list has not the length the word calls for, before anything else is looked at (R103; I16). -/
def decode : Packet → Except DecodeError Instr
  | .command cw payload =>
    if payload.length = payloadLength cw then decodeCommand cw payload
    else .error .payloadMismatch
  | .wire bits => decodeWire bits

/-! ### The encoder -/

/-- The packet of an instruction, from the tables of R104, R111 and R120. -/
def encode : Instr → Packet
  | .tmrCreate token => .command (cmd32 0x01 0 token) []
  | .tmrSetp slot period => .command (cmd32 0x02 slot period) []
  | .tmrStart slot ar => .command (cmd32 0x03 slot (arImm ar)) []
  | .tmrStop slot => .command (cmd32 0x04 slot 0) []
  | .tmrTick => .command (cmd32 0x05 0 0) []
  | .tmrDispatch => .command (cmd32 0x06 0 0) []
  | .tmrCbret => .command (cmd32 0x07 0 0) []
  | .rbInit => .command (cmd32 0x10 0 0) []
  | .rbIsempty => .command (cmd32 0x11 0 0) []
  | .rbFree => .command (cmd32 0x12 0 0) []
  | .rbAdd length payload => .command (cmd32 0x13 0 length) payload
  | .rbPeek => .command (cmd32 0x14 0 0) []
  | .rbRemove count => .command (cmd32 0x15 0 count) []
  | .rxByte b => .command (cmd32 0x20 b 0) []
  | .rxRead => .command (cmd32 0x21 0 0) []
  | .prsByte b => .command (cmd32 0x22 b 0) []
  | .rxParse => .command (cmd32 0x23 0 0) []
  | .txSend length payload => .command (cmd32 0x28 0 length) payload
  | .txPacket parameterId value => .command (cmd32 0x29 parameterId value) []
  | .txByte b => .command (cmd32 0x2A b 0) []
  | .txDrain => .command (cmd32 0x2B 0 0) []
  | .frame parameterId value => .wire (frameBits parameterId value)

/-- The command word of a packet. A wire frame has none; nothing reads its value here. -/
def Packet.word : Packet → Word
  | .command cw _ => cw
  | .wire _ => 0

/-- The command word a fault raised by `i` records (R46, R106). -/
def commandWord (i : Instr) : Word := (encode i).word

/-! ### The opcode table's words -/

/-- The packet of an instruction whose bits are `w`, numbered as spec/opcode_table.json numbers
them: a 32-bit row is a command word, with as many zero payload bytes as it calls for; the
40-bit row is the wire pattern. -/
def tablePacket (nbits w : Nat) : Option Packet :=
  if nbits ≤ 32 then
    let cw := BitVec.ofNat 32 w
    some (.command cw (List.replicate (payloadLength cw) 0))
  else if nbits ≤ 40 then some (.wire (BitVec.ofNat 40 w))
  else none

/-- The instruction the decoder reads from a table word; none where it refuses. -/
def decodeTableWord (nbits w : Nat) : Option Instr :=
  match tablePacket nbits w with
  | none => none
  | some p =>
    match decode p with
    | .ok i => some i
    | .error _ => none

/-! ### Assembler (R111, R112) -/

/-- The expansions of R112: `loop` is the three main-loop phases the BSC performs, in order, and
`tmr.arm` sets the period and starts. -/
def Pseudo.expand : Pseudo → List Instr
  | .loop => [.txDrain, .rxParse, .tmrDispatch]
  | .tmrArm slot period ar => [.tmrSetp slot period, .tmrStart slot ar]

/-- A payload as a bracketed byte list (R111), in decimal. -/
def asmBytes (bytes : List Byte) : String :=
  "[" ++ ", ".intercalate (bytes.map fun b => toString b.toNat) ++ "]"

/-- The assembler syntax of R111, operands in decimal. A frame is no command and has no syntax. -/
def Instr.assembly : Instr → Option String
  | .tmrCreate token => some ("tmr.create " ++ toString token.toNat)
  | .tmrSetp slot period => some ("tmr.setp " ++ toString slot.toNat ++ ", " ++ toString period.toNat)
  | .tmrStart slot ar => some ("tmr.start " ++ toString slot.toNat ++ ", " ++ toString ar.toNat)
  | .tmrStop slot => some ("tmr.stop " ++ toString slot.toNat)
  | .tmrTick => some "tmr.tick"
  | .tmrDispatch => some "tmr.dispatch"
  | .tmrCbret => some "tmr.cbret"
  | .rbInit => some "rb.init"
  | .rbIsempty => some "rb.isempty"
  | .rbFree => some "rb.free"
  | .rbAdd _ payload => some ("rb.add " ++ asmBytes payload)
  | .rbPeek => some "rb.peek"
  | .rbRemove count => some ("rb.remove " ++ toString count.toNat)
  | .rxByte b => some ("rx.byte " ++ toString b.toNat)
  | .rxRead => some "rx.read"
  | .prsByte b => some ("prs.byte " ++ toString b.toNat)
  | .rxParse => some "rx.parse"
  | .txSend _ payload => some ("tx.send " ++ asmBytes payload)
  | .txPacket parameterId value =>
    some ("tx.packet " ++ toString parameterId.toNat ++ ", " ++ toString value.toNat)
  | .txByte b => some ("tx.byte " ++ toString b.toNat)
  | .txDrain => some "tx.drain"
  | .frame _ _ => none

end Sys2Proof
end

