-- ==== Sys2Proof/Machine/State.lean ====
section
/-! DEFINITION. The state of the BSC as plain data: every piece of state of spec/10_state.md,
its ports, inputs and outputs (R44), and its value after reset (R50, R350). -/

namespace Sys2Proof.Machine

open Sys2Proof

/-- The two ports a command word arrives on (R44, R102). -/
inductive Port where
  /-- the cooperative command port, which HOST uses -/
  | coop
  /-- the interrupt event port, which TKI and RXI use -/
  | irq
deriving DecidableEq, Repr

/-- One slot of the timer table (R33). -/
structure Timer where
  /-- due threshold, in ticks -/
  period : Half
  /-- `period` has been written since reset (hidden state) -/
  periodSet : Bool
  /-- ticks counted -/
  elapsed : Half
  /-- callback token, opaque to the BSC -/
  cb : Half
  /-- re-arm on fire, or disable on fire -/
  autoReload : Bool
  /-- Running, or Disabled -/
  enabled : Bool
deriving DecidableEq, Repr

/-- A slot after reset (R50). -/
def Timer.reset : Timer :=
  { period := 0, periodSet := false, elapsed := 0, cb := 0, autoReload := false, enabled := false }

/-- The parser counter `prsState`: 3 bits, values 0 to 4 and no other (R43; I13). -/
inductive ParserState where
  /-- 0, "seeking" -/
  | seeking
  /-- 1, expects parameterId -/
  | expectId
  /-- 2, expects valueHigh -/
  | expectHigh
  /-- 3, expects valueLow -/
  | expectLow
  /-- 4, expects END_BYTE -/
  | expectEnd
deriving DecidableEq, Repr

/-- The busy state `coop` (R45). -/
inductive Coop where
  /-- no cooperative command in progress -/
  | idle
  /-- TMR.DISPATCH in progress, slot `i` (0 to `TIMER_SLOTS`) next to examine -/
  | dispatch (i : Fin (Config.timerSlots + 1))
  /-- the callback window of slot `i` is open -/
  | callback (i : Fin Config.timerSlots)
  /-- RX.PARSE in progress -/
  | parse
  /-- TX.DRAIN in progress -/
  | drain
deriving DecidableEq, Repr

/-- The seven faults of the BSC (R300). Raising one is a step to a next state that records it
and is halted; it is no `Fault` of this file. -/
inductive FaultCode where
  /-- `F_ILLEGAL` -/
  | illegal
  /-- `F_CONTEXT` -/
  | context
  /-- `F_BAD_SLOT` -/
  | badSlot
  /-- `F_UNSET_PERIOD` -/
  | unsetPeriod
  /-- `F_RB_OVERFLOW` -/
  | rbOverflow
  /-- `F_RB_UNDERFLOW` -/
  | rbUnderflow
  /-- `F_RX_EMPTY` -/
  | rxEmpty
deriving DecidableEq, Repr

/-- The pair (`code`, `word`) a fault records (R46, R300). -/
structure FaultRecord where
  code : FaultCode
  word : Word
deriving DecidableEq, Repr

/-- The output events (R15, R110). -/
inductive Event where
  | fire (slot : Byte) (token : Half)
  | storeWrite (addr : StorageAddr) (value : Half)
  | uartTx (byte : Byte)
  | data (bytes : List Byte)
deriving DecidableEq, Repr

/-- A byte memory: the listed cells, strictly rising addresses, none holding what an unlisted
address reads as. -/
structure Memory where
  cells : List Host.Cell
deriving DecidableEq, Repr

/-- What an unlisted byte reads as: the reset value R50 gives `TX[k]` and `RX[k]`. -/
def Memory.blank : Byte := 0

/-- The canonical form: equal memories are equal data. -/
abbrev Memory.wf (m : Memory) : Prop :=
  m.cells.Pairwise (fun c d => c.1 < d.1) ∧ ∀ c ∈ m.cells, c.2 ≠ Memory.blank

/-- Nothing listed: every byte at its reset value. -/
def Memory.empty : Memory := { cells := [] }

/-- One thing the outside does next, or leaves the BSC to do (R4, R44, R80). The agents' steps
are in one total order; the list of these in the state is that order as far as it lies outside. -/
inductive Input where
  /-- A command word with its payload bytes arrives on a port (R102, R103). -/
  | word (port : Port) (cw : Word) (payload : List Byte)
  /-- Five bytes arrive one after the other on the serial line (R120, R305, R314). -/
  | wire (bits : BitVec 40)
  /-- The UART drives the input `TX_READY` to a level (R44, R314). -/
  | txReady (level : Bool)
  /-- Nothing arrives: the BSC takes its own micro-step, if it has one (R182, R221, R257). -/
  | own
  /-- Reset (R350). -/
  | reset
deriving DecidableEq, Repr

/-- Why a step has no next state. Neither can be met in a run from reset: they are the reads that
R14 says no rule forms, which only a state outside the invariants B1 (R39) and S1 (R42) could ask for. -/
inductive Fault where
  /-- Raised by a drain micro-step that would read `TX` at an index not below `TXBUFFER_SIZE`. Safe. -/
  | txIndex
  /-- Raised by RX.READ or an RX.PARSE micro-step that would read `RX` at an index not below
  `RXBUFFER_SIZE`. Safe. -/
  | rxIndex
deriving DecidableEq, Repr

/-- Why an input is refused before it reaches the BSC. -/
inductive Refusal where
  /-- Raised by no arm of `exec` in this model: an instruction without a meaning. Safe. -/
  | notModelled (mnemonic : String)
  /-- Raised for a command whose byte list has not the length its word calls for: "a model
  refuses an ill-formed pair before it reaches the BSC" (R103; I16). Safe. -/
  | payloadMismatch
deriving DecidableEq, Repr

/-- The whole state of the BSC and its ports. -/
structure State where
  /-- The parameters the block was built with (R9); no step writes them. -/
  params : Params
  /-- The timer table `tmr[0 .. TIMER_SLOTS-1]` (R33). -/
  tmr : Vector Timer Config.timerSlots
  /-- `tmrCount`, the number of claimed slots, 0 to `TIMER_SLOTS` (R34). -/
  tmrCount : Fin (Config.timerSlots + 1)
  /-- The TX memory (R37). -/
  txMem : Memory
  /-- `txRd`, the index of the oldest buffered byte (R38). -/
  txRd : Nat
  /-- `txCnt`, the number of buffered bytes (R38). -/
  txCnt : Nat
  /-- The RX memory (R40). -/
  rxMem : Memory
  /-- `rxWr`, the write cursor (R41). -/
  rxWr : Nat
  /-- `rxRd`, the read cursor (R41). -/
  rxRd : Nat
  /-- `prsState` (R43). -/
  prsState : ParserState
  /-- `prsId` (R43). -/
  prsId : Byte
  /-- `prsValue` (R43). -/
  prsValue : Half
  /-- `coop`, the busy state (R45). -/
  coop : Coop
  /-- `fault`, NONE or the record of the fault that halted the BSC (R46). -/
  fault : Option FaultRecord
  /-- The level of the input `TX_READY` (R44). -/
  txReady : Bool
  /-- What the outside does next, first thing first: the model's own field (log entry 4). -/
  inputs : List Input
  /-- The event trace, oldest event first, append-only (R44). -/
  trace : List Event
  /-- The result words delivered to HOST, oldest first (R108): the model's own record of that
  output (log entry 5). -/
  results : List Word
deriving DecidableEq, Repr

/-- The reset values of R50 in a block built with parameters `p`, `TX_READY` at a level. -/
def State.resetWith (p : Params) (ready : Bool) : State :=
  { params := p
    tmr := Vector.replicate Config.timerSlots Timer.reset
    tmrCount := 0
    txMem := Memory.empty
    txRd := 0
    txCnt := 0
    rxMem := Memory.empty
    rxWr := 0
    rxRd := 0
    prsState := .seeking
    prsId := 0
    prsValue := 0
    coop := .idle
    fault := none
    txReady := ready
    inputs := []
    trace := []
    results := [] }

/-- The machine right after reset (R50, R350), with the parameters it is built with (R9). -/
def State.reset : State := State.resetWith Config.params Config.txReadyAtStart

end Sys2Proof.Machine
end

