-- ==== Sys2Proof/Machine/Ops.lean ====
section
/-! DEFINITION. The operations the meanings share: byte memories (R14), output (R15), port
acceptance (R303), raising a fault (R301), reset (R350), the Ring Buffer's producer and consumer
(R38, R144 to R146), the staging buffer's writer and reader (R210, R213), and one byte through
the frame parser (R216 to R220). -/

namespace Sys2Proof.Machine

open Sys2Proof

/-! ### Byte memories (R14) -/

/-- `MemRead(M, a, 1)` on the listed cells. -/
def Memory.readCells : List Host.Cell → Nat → Byte
  | [], _ => Memory.blank
  | c :: rest, a => if c.1 = a then c.2 else Memory.readCells rest a

/-- `MemRead(M, a, 1)` (R14). -/
def Memory.read (m : Memory) (a : Nat) : Byte := Memory.readCells m.cells a

/-- `MemWrite(M, a, 1, v)` on the listed cells, in canonical form. -/
def Memory.writeCells : List Host.Cell → Nat → Byte → List Host.Cell
  | [], a, v => if v = Memory.blank then [] else [(a, v)]
  | c :: rest, a, v =>
    if a < c.1 then (if v = Memory.blank then c :: rest else (a, v) :: c :: rest)
    else if a = c.1 then (if v = Memory.blank then rest else (a, v) :: rest)
    else c :: Memory.writeCells rest a v

/-- `MemWrite(M, a, 1, v)` (R14). -/
def Memory.write (m : Memory) (a : Nat) (v : Byte) : Memory :=
  { cells := Memory.writeCells m.cells a v }

/-- Bytes written one by one in ascending index order from `at_`, wrapping modulo `cap` (R70, R144). -/
def Memory.writeRing (m : Memory) (cap at_ : Nat) : List Byte → Memory
  | [] => m
  | b :: rest => Memory.writeRing (m.write (at_ % cap) b) cap (at_ + 1) rest

/-- `n` bytes read one by one in ascending index order from `at_` (R70, R145). -/
def Memory.readRun (m : Memory) (at_ : Nat) : Nat → List Byte
  | 0 => []
  | n + 1 => m.read at_ :: Memory.readRun m (at_ + 1) n

/-! ### Output (R15, R108, R110) -/

/-- `emit E`: the event is appended to the trace. -/
def State.emit (s : State) (e : Event) : State := { s with trace := s.trace ++ [e] }

/-- `result <- v`: the result word is delivered to HOST. -/
def State.deliver (s : State) (v : Word) : State := { s with results := s.results ++ [v] }

/-! ### Faults and reset (R300, R301, R350) -/

/-- The number of a fault code (R300). -/
def FaultCode.number : FaultCode → Nat
  | .illegal => 1
  | .context => 2
  | .badSlot => 3
  | .unsetPeriod => 4
  | .rbOverflow => 5
  | .rbUnderflow => 6
  | .rxEmpty => 7

/-- `fault != NONE`: the BSC has halted (R106, R301). -/
def State.halted (s : State) : Bool := s.fault.isSome

/-- `raise Fault(code)`: no state change but the record (R301). There is no handler to go to and
no return: only reset clears the record (R309). -/
def State.raise (s : State) (code : FaultCode) (word : Word) : State :=
  { s with fault := some { code := code, word := word } }

/-- Reset: every field at its value of R50, `fault` cleared, an empty event trace (R350). What
the outside does next is not the BSC's state, and neither is the level it drives `TX_READY` to. -/
def State.restart (s : State) : State :=
  { State.resetWith s.params s.txReady with inputs := s.inputs }

/-! ### Port acceptance (R102, R303) -/

/-- The port of each instruction's row (R104). A frame's bytes come in as RX.BYTE events (R305). -/
def portOf : Instr → Port
  | .tmrCreate _ => .coop
  | .tmrSetp _ _ => .coop
  | .tmrStart _ _ => .coop
  | .tmrStop _ => .coop
  | .tmrTick => .irq
  | .tmrDispatch => .coop
  | .tmrCbret => .coop
  | .rbInit => .coop
  | .rbIsempty => .coop
  | .rbFree => .coop
  | .rbAdd _ _ => .coop
  | .rbPeek => .coop
  | .rbRemove _ => .coop
  | .rxByte _ => .irq
  | .rxRead => .coop
  | .prsByte _ => .coop
  | .rxParse => .coop
  | .txSend _ _ => .coop
  | .txPacket _ _ => .coop
  | .txByte _ => .coop
  | .txDrain => .coop
  | .frame _ _ => .irq

/-- Whether `coop` lets a cooperative command in: the `case coop of` of R303. `closesWindow` says
the command is TMR.CBRET, `multiStep` that it is TMR.DISPATCH, RX.PARSE or TX.DRAIN. -/
def Coop.admits (c : Coop) (closesWindow multiStep : Bool) : Bool :=
  match c with
  | .idle => !closesWindow
  | .callback _ => !multiStep
  | .dispatch _ => false
  | .parse => false
  | .drain => false

/-- Whether `coop` lets an instruction in on its own port: the `case coop of` of R303. -/
def Coop.admitsInstr (c : Coop) : Instr → Bool
  | .tmrCreate _ => c.admits false false
  | .tmrSetp _ _ => c.admits false false
  | .tmrStart _ _ => c.admits false false
  | .tmrStop _ => c.admits false false
  | .tmrTick => true
  | .tmrDispatch => c.admits false true
  | .tmrCbret => c.admits true false
  | .rbInit => c.admits false false
  | .rbIsempty => c.admits false false
  | .rbFree => c.admits false false
  | .rbAdd _ _ => c.admits false false
  | .rbPeek => c.admits false false
  | .rbRemove _ => c.admits false false
  | .rxByte _ => true
  | .rxRead => c.admits false false
  | .prsByte _ => c.admits false false
  | .rxParse => c.admits false true
  | .txSend _ _ => c.admits false false
  | .txPacket _ _ => c.admits false false
  | .txByte _ => c.admits false false
  | .txDrain => c.admits false true
  | .frame _ _ => true

/-- `accept(cw, p, coop)` of R303: the right port, and a busy state that lets the command in. -/
def accept (i : Instr) (p : Port) (c : Coop) : Bool := p == portOf i && c.admitsInstr i

/-- The checks of R106 that come before a legal word's own rule, in their order, for `i` on its
own port: a halted BSC takes no step; a word the busy state rejects raises `F_CONTEXT`; else the
rule is executed. -/
def command (i : Instr) (s : State) (rule : State → Host.Outcome State Fault Refusal) :
    Host.Outcome State Fault Refusal :=
  if s.halted then .next s
  else if accept i (portOf i) s.coop then rule s
  else .next (s.raise .context (commandWord i))

/-! ### Ring Buffer (R37 to R39, R144 to R146) -/

/-- `CAP`, that is `TXBUFFER_SIZE`. -/
def State.txCap (s : State) : Nat := s.params.txBuffer.size

/-- The free space, `CAP - txCnt` (R39, R143). -/
def State.txFree (s : State) : Nat := s.txCap - s.txCnt

/-- The index the `k`-th byte after the buffered ones is stored at (R38, R144). -/
def State.txSlot (s : State) (k : Nat) : Nat := (s.txRd + s.txCnt + k) % s.txCap

/-- The bytes are appended in order, wrapping as needed (R144, R250). -/
def State.enqueue (s : State) (bytes : List Byte) : State :=
  { s with
    txMem := s.txMem.writeRing s.txCap (s.txRd + s.txCnt) bytes
    txCnt := s.txCnt + bytes.length }

/-- The consumer cursor advances by `count`, freeing that space (R146, R257). -/
def State.dequeue (s : State) (count : Nat) : State :=
  { s with
    txRd := (s.txRd + count) % s.txCap
    txCnt := s.txCnt - count }

/-- The length of the contiguous run, `min(txCnt, CAP - txRd)` (R145). -/
def State.txRun (s : State) : Nat := min s.txCnt (s.txCap - s.txRd)

/-! ### Receive Staging Buffer (R40 to R42, R210, R213) -/

/-- `RXCAP`, that is `RXBUFFER_SIZE`. -/
def State.rxCap (s : State) : Nat := s.params.rxBuffer.size

/-- A received byte is stored if capacity remains and dropped otherwise (R210). -/
def State.receive (s : State) (b : Byte) : State :=
  if s.rxWr < s.rxCap then { s with rxMem := s.rxMem.write s.rxWr b, rxWr := s.rxWr + 1 } else s

/-- Received bytes in the order they arrive (R120, R305). -/
def State.receiveAll (s : State) : List Byte → State
  | [] => s
  | b :: rest => State.receiveAll (s.receive b) rest

/-- The read cursor goes past one byte, and both cursors are reset if it caught the write cursor,
all in one step (R82, R213). -/
def State.passByte (s : State) : State :=
  if s.rxRd + 1 = s.rxWr then { s with rxRd := 0, rxWr := 0 } else { s with rxRd := s.rxRd + 1 }

/-- The next staged byte and the state without it (R213, R221); none where `rxRd` is no index of
`RX`, which R14 says is never formed. -/
def State.popRx (s : State) : Option (Byte × State) :=
  if s.rxRd < s.rxCap then some (s.rxMem.read s.rxRd, s.passByte) else none

/-! ### Frame parser (R43, R215 to R220) -/

/-- The value of the parser counter (R43). -/
def ParserState.counter : ParserState → Nat
  | .seeking => 0
  | .expectId => 1
  | .expectHigh => 2
  | .expectLow => 3
  | .expectEnd => 4

/-- `PARAM_MAP(id)`, none outside its domain (R9, R124). -/
def lookupAddr (m : ParamMap) (id : Byte) : Option StorageAddr := m.entries.lookup id

/-- State 4: a good frame with a known id is written to storage; `prsState` returns to 0 in every
case (R220). -/
def State.endFrame (s : State) (b : Byte) : State :=
  if b = Config.endByte then
    match lookupAddr s.params.paramMap s.prsId with
    | some addr => { s.emit (.storeWrite addr s.prsValue) with prsState := .seeking }
    | none => { s with prsState := .seeking }
  else { s with prsState := .seeking }

/-- `ParseByte(b)` (R215): the case of R216 to R220 that `prsState` selects. -/
def State.parseByte (s : State) (b : Byte) : State :=
  match s.prsState with
  | .seeking => if b = Config.startByte then { s with prsState := .expectId } else s
  | .expectId => { s with prsId := b, prsState := .expectHigh }
  | .expectHigh => { s with prsValue := b.setWidth 16 <<< 8, prsState := .expectLow }
  | .expectLow => { s with prsValue := s.prsValue + b.setWidth 16, prsState := .expectEnd }
  | .expectEnd => s.endFrame b

end Sys2Proof.Machine
end

