-- ==== Sys2Proof/Machine/Operands.lean ====
section
/-! DEFINITION. The operand forms of R101 that a rule checks before it acts: the slot operand of
TMR.SETP, TMR.START and TMR.STOP (R171) and the payload of RB.ADD and TX.SEND (R103). Every
other operand is a field of the command word, taken whole by the decoder. -/

namespace Sys2Proof.Machine

open Sys2Proof

/-- The claimed slot an operand names; none when `slot >= tmrCount` (R171). -/
def State.claimedSlot (s : State) (slot : Byte) : Option (Fin Config.timerSlots) :=
  if h : slot.toNat < s.tmrCount.val then
    some ⟨slot.toNat, Nat.lt_of_lt_of_le h (Nat.le_of_lt_succ s.tmrCount.isLt)⟩
  else none

/-- One slot of the timer table is rewritten. -/
def State.setTimer (s : State) (i : Fin Config.timerSlots) (t : Timer) : State :=
  { s with tmr := s.tmr.set i.val t i.isLt }

/-- A command on a claimed slot: `F_BAD_SLOT` and no state change when the slot is not claimed,
else the slot's fields are rewritten (R171, R172, R174, R176). -/
def State.onSlot (s : State) (i : Instr) (slot : Byte) (update : Timer → Timer) : State :=
  match s.claimedSlot slot with
  | some k => s.setTimer k (update (s.tmr[k.val]'k.isLt))
  | none => s.raise .badSlot (commandWord i)

/-- A command with a payload: an ill-formed pair is refused before it reaches the BSC (R103). -/
def withPayload (length : Half) (payload : List Byte)
    (rule : Host.Outcome State Fault Refusal) : Host.Outcome State Fault Refusal :=
  if payloadFits length payload then rule else .refused .payloadMismatch

end Sys2Proof.Machine
end

