-- ==== Sys2Proof/Machine/Flags.lean ====
section
/-! DEFINITION. The boolean state of the BSC. It has no condition codes (R47): its flags are
`enabled`, `autoReload` and `periodSet` of each slot, and a command's success is a result word.
Here are what each command and each tick does to a slot's fields, the due test, and the boolean
result words. -/

namespace Sys2Proof.Machine

open Sys2Proof

/-- `rw = 1` for true and `rw = 0` for false (R108). -/
def boolWord (b : Bool) : Word := if b then 1 else 0

/-- The slot a TMR.CREATE claims: bound to the callback, disabled, the rest unwritten (R170). -/
def Timer.create (t : Timer) (token : Half) : Timer := { t with cb := token, enabled := false }

/-- TMR.SETP: `period` is written, `elapsed`, `enabled` and `autoReload` are not (R172). -/
def Timer.setPeriod (t : Timer) (period : Half) : Timer :=
  { t with period := period, periodSet := true }

/-- TMR.START: `elapsed` from 0, Running, `autoReload` stored (R174). -/
def Timer.start (t : Timer) (ar : Bool) : Timer :=
  { t with elapsed := 0, enabled := true, autoReload := ar }

/-- TMR.STOP: Disabled, `elapsed` kept (R176). -/
def Timer.stop (t : Timer) : Timer := { t with enabled := false }

/-- One tick: a Running slot's `elapsed` goes up by one, modulo 2^16 (R178). -/
def Timer.tick (t : Timer) : Timer := if t.enabled then { t with elapsed := t.elapsed + 1 } else t

/-- `elapsed >= period` (R182). -/
def Timer.reached (t : Timer) : Bool := decide (t.period ≤ t.elapsed)

/-- What firing does to the slot before the callback window opens: an auto-reload slot re-arms, a
one-shot slot is disabled (R182). -/
def Timer.fired (t : Timer) : Timer :=
  if t.autoReload then { t with elapsed := 0 } else { t with enabled := false }

/-- Every slot of the table through one function, in slot order. -/
def mapTimers (f : Timer → Timer) (v : Vector Timer Config.timerSlots) :
    Vector Timer Config.timerSlots :=
  ⟨⟨v.toList.map f⟩, by simp⟩

end Sys2Proof.Machine
end

