-- ==== Sys2Proof/Machine/Receive.lean ====
section
/-! DEFINITION. The serial receive path and the frame parser (spec/42_serial_receive.md), and the
arrival of a whole wire frame (R120). -/

namespace Sys2Proof.Machine

open Sys2Proof

/-- `RX.BYTE` (R210). -/
def execRxByte (b : Byte) (s : State) : Host.Outcome State Fault Refusal :=
  command (.rxByte b) s fun s => .next (s.receive b)

/-- `RX.READ`: `F_RX_EMPTY` when nothing is staged, else the next byte is popped and returned (R213). -/
def execRxRead (s : State) : Host.Outcome State Fault Refusal :=
  command .rxRead s fun s =>
    if s.rxRd = s.rxWr then .next (s.raise .rxEmpty (commandWord .rxRead))
    else
      match s.popRx with
      | some (b, t) => .next (t.deliver (b.setWidth 32))
      | none => .fault .rxIndex

/-- `PRS.BYTE` (R215). -/
def execPrsByte (b : Byte) (s : State) : Host.Outcome State Fault Refusal :=
  command (.prsByte b) s fun s => .next (s.parseByte b)

/-- `RX.PARSE`: goes on by micro-steps (R221). -/
def execRxParse (s : State) : Host.Outcome State Fault Refusal :=
  command .rxParse s fun s => .next { s with coop := .parse }

/-- The RX.PARSE micro-step: complete when nothing is staged, else one byte is popped and parsed
(R221). -/
def State.parseStep (s : State) : Host.Outcome State Fault Refusal :=
  if s.rxRd = s.rxWr then .next { s with coop := .idle }
  else
    match s.popRx with
    | some (b, t) => .next (t.parseByte b)
    | none => .fault .rxIndex

/-- `FRAME`: the five bytes of the frame arrive on the wire in order, each one RX.BYTE event
(R120, R210, R305, R314; log entry 6). A halted BSC takes none of them (R301). -/
def execFrame (parameterId : Byte) (value : Half) (s : State) : Host.Outcome State Fault Refusal :=
  command (.frame parameterId value) s fun s => .next (s.receiveAll (frameBytes parameterId value))

end Sys2Proof.Machine
end

