-- ==== Sys2Proof/Machine/Ring.lean ====
section
/-! DEFINITION. The Ring Buffer commands (spec/40_ring_buffer.md). -/

namespace Sys2Proof.Machine

open Sys2Proof

/-- `RB.INIT`: the cursors only; `TX[k]` is unchanged (R141). -/
def execRbInit (s : State) : Host.Outcome State Fault Refusal :=
  command .rbInit s fun s => .next { s with txRd := 0, txCnt := 0 }

/-- `RB.ISEMPTY` (R142). -/
def execRbIsempty (s : State) : Host.Outcome State Fault Refusal :=
  command .rbIsempty s fun s => .next (s.deliver (boolWord (s.txCnt == 0)))

/-- `RB.FREE` (R143). -/
def execRbFree (s : State) : Host.Outcome State Fault Refusal :=
  command .rbFree s fun s => .next (s.deliver (BitVec.ofNat 32 s.txFree))

/-- The effect of RB.ADD: `F_RB_OVERFLOW` when the bytes do not fit, else they are enqueued (R144). -/
def State.addBytes (s : State) (length : Half) (payload : List Byte) : State :=
  if s.txFree < length.toNat then s.raise .rbOverflow (commandWord (.rbAdd length payload))
  else s.enqueue payload

/-- `RB.ADD` (R144). -/
def execRbAdd (length : Half) (payload : List Byte) (s : State) :
    Host.Outcome State Fault Refusal :=
  withPayload length payload
    (command (.rbAdd length payload) s fun s => .next (s.addBytes length payload))

/-- `RB.PEEK`: the contiguous run is sent out as DATA and its length returned (R145). -/
def execRbPeek (s : State) : Host.Outcome State Fault Refusal :=
  command .rbPeek s fun s =>
    .next ((s.emit (.data (s.txMem.readRun s.txRd s.txRun))).deliver (BitVec.ofNat 32 s.txRun))

/-- The effect of RB.REMOVE: `F_RB_UNDERFLOW` when fewer bytes are buffered, else the consumer
cursor advances (R146). -/
def State.removeBytes (s : State) (count : Half) : State :=
  if s.txCnt < count.toNat then s.raise .rbUnderflow (commandWord (.rbRemove count))
  else s.dequeue count.toNat

/-- `RB.REMOVE` (R146). -/
def execRbRemove (count : Half) (s : State) : Host.Outcome State Fault Refusal :=
  command (.rbRemove count) s fun s => .next (s.removeBytes count)

end Sys2Proof.Machine
end

