-- ==== Sys2Proof/Machine/Timers.lean ====
section
/-! DEFINITION. The Soft-Timer Multiplexer: the seven TMR commands and the dispatch micro-step
(spec/41_soft_timer.md). -/

namespace Sys2Proof.Machine

open Sys2Proof

/-- The effect of TMR.CREATE: the next free slot is claimed and its index returned, or 0xFF when
the table is full (R170). -/
def State.createTimer (s : State) (token : Half) : State :=
  if h : s.tmrCount.val < Config.timerSlots then
    { (s.setTimer ⟨s.tmrCount.val, h⟩ ((s.tmr[s.tmrCount.val]'h).create token)).deliver
        (BitVec.ofNat 32 s.tmrCount.val) with
      tmrCount := ⟨s.tmrCount.val + 1, Nat.succ_lt_succ h⟩ }
  else s.deliver 0x000000FF

/-- `TMR.CREATE` (R170). -/
def execTmrCreate (token : Half) (s : State) : Host.Outcome State Fault Refusal :=
  command (.tmrCreate token) s fun s => .next (s.createTimer token)

/-- `TMR.SETP` (R172). -/
def execTmrSetp (slot : Byte) (period : Half) (s : State) : Host.Outcome State Fault Refusal :=
  command (.tmrSetp slot period) s fun s =>
    .next (s.onSlot (.tmrSetp slot period) slot fun t => t.setPeriod period)

/-- `TMR.START` (R174). -/
def execTmrStart (slot : Byte) (ar : Bool) (s : State) : Host.Outcome State Fault Refusal :=
  command (.tmrStart slot ar) s fun s =>
    .next (s.onSlot (.tmrStart slot ar) slot fun t => t.start ar)

/-- `TMR.STOP` (R176). -/
def execTmrStop (slot : Byte) (s : State) : Host.Outcome State Fault Refusal :=
  command (.tmrStop slot) s fun s => .next (s.onSlot (.tmrStop slot) slot fun t => t.stop)

/-- `TMR.TICK` (R178). -/
def execTmrTick (s : State) : Host.Outcome State Fault Refusal :=
  command .tmrTick s fun s => .next { s with tmr := mapTimers Timer.tick s.tmr }

/-- `TMR.DISPATCH`: a pass begins at slot 0 and goes on by micro-steps (R180). -/
def execTmrDispatch (s : State) : Host.Outcome State Fault Refusal :=
  command .tmrDispatch s fun s => .next { s with coop := .dispatch 0 }

/-- The end of a callback window: the pass resumes at the next slot (R184). -/
def State.closeWindow (s : State) : State :=
  match s.coop with
  | .callback i => { s with coop := .dispatch i.succ }
  | _ => s

/-- `TMR.CBRET` (R184). -/
def execTmrCbret (s : State) : Host.Outcome State Fault Refusal :=
  command .tmrCbret s fun s => .next s.closeWindow

/-- The dispatch micro-step DSCAN at `DISPATCH(i)` (R182). The pass's own command word is recorded
when an unwritten period would be compared. -/
def State.scan (s : State) (i : Fin (Config.timerSlots + 1)) : State :=
  if h : i.val < Config.timerSlots then
    let t := s.tmr[i.val]'h
    if t.enabled then
      if !t.periodSet then s.raise .unsetPeriod (commandWord .tmrDispatch)
      else if t.reached then
        { (s.setTimer ⟨i.val, h⟩ t.fired).emit (.fire (BitVec.ofNat 8 i.val) t.cb) with
          coop := .callback ⟨i.val, h⟩ }
      else { s with coop := .dispatch ⟨i.val + 1, Nat.succ_lt_succ h⟩ }
    else { s with coop := .dispatch ⟨i.val + 1, Nat.succ_lt_succ h⟩ }
  else { s with coop := .idle }

end Sys2Proof.Machine
end

