-- ==== Sys2Proof/Machine/Transmit.lean ====
section
/-! DEFINITION. The serial transmit path (spec/43_serial_transmit.md). -/

namespace Sys2Proof.Machine

open Sys2Proof

/-- The enqueue the TX commands share: all the bytes and result 1, or none and result 0 (R250). -/
def State.send (s : State) (bytes : List Byte) : State :=
  if s.txFree < bytes.length then s.deliver (boolWord false)
  else (s.enqueue bytes).deliver (boolWord true)

/-- `TX.SEND` (R251). -/
def execTxSend (length : Half) (payload : List Byte) (s : State) :
    Host.Outcome State Fault Refusal :=
  withPayload length payload
    (command (.txSend length payload) s fun s => .next (s.send payload))

/-- `TX.PACKET` (R252). -/
def execTxPacket (parameterId : Byte) (value : Half) (s : State) :
    Host.Outcome State Fault Refusal :=
  command (.txPacket parameterId value) s fun s => .next (s.send (frameBytes parameterId value))

/-- `TX.BYTE` (R253). -/
def execTxByte (b : Byte) (s : State) : Host.Outcome State Fault Refusal :=
  command (.txByte b) s fun s => .next (s.send [b])

/-- `TX.DRAIN`: goes on by micro-steps (R255). -/
def execTxDrain (s : State) : Host.Outcome State Fault Refusal :=
  command .txDrain s fun s => .next { s with coop := .drain }

/-- The drain micro-step: complete when the buffer is empty; else, while `TX_READY` is 1, the
oldest byte is sent and removed; else nothing, the drain waits (R256, R257). -/
def State.drainStep (s : State) : Host.Outcome State Fault Refusal :=
  if s.txCnt = 0 then .next { s with coop := .idle }
  else if s.txReady then
    if s.txRd < s.txCap then .next ((s.emit (.uartTx (s.txMem.read s.txRd))).dequeue 1)
    else .fault .txIndex
  else .next s

end Sys2Proof.Machine
end

