-- ==== Sys2Proof/Machine/Micro.lean ====
section
/-! DEFINITION. The step the BSC takes on its own: the micro-step of the multi-step command in
progress (R16, R45). -/

namespace Sys2Proof.Machine

open Sys2Proof

/-- The BSC's own micro-step. A halted BSC takes none (R301), and neither does an idle one or one
with an open callback window (R183): the state stays as it is. -/
def microStep (s : State) : Host.Outcome State Fault Refusal :=
  if s.halted then .next s
  else
    match s.coop with
    | .idle => .next s
    | .dispatch i => .next (s.scan i)
    | .callback _ => .next s
    | .parse => s.parseStep
    | .drain => s.drainStep

end Sys2Proof.Machine
end

