-- ==== Sys2Proof/Machine/Dispatch.lean ====
section
/-! DEFINITION. One arm per instruction: its meaning when it arrives on its own port. -/

namespace Sys2Proof.Machine

open Sys2Proof

def exec (i : Instr) (s : State) : Host.Outcome State Fault Refusal :=
  match i with
  -- Soft-Timer Multiplexer (spec/41_soft_timer.md)
  | .tmrCreate token => Sys2Proof.Machine.execTmrCreate token s
  | .tmrSetp slot period => Sys2Proof.Machine.execTmrSetp slot period s
  | .tmrStart slot ar => Sys2Proof.Machine.execTmrStart slot ar s
  | .tmrStop slot => Sys2Proof.Machine.execTmrStop slot s
  | .tmrTick => Sys2Proof.Machine.execTmrTick s
  | .tmrDispatch => Sys2Proof.Machine.execTmrDispatch s
  | .tmrCbret => Sys2Proof.Machine.execTmrCbret s
  -- Ring Buffer (spec/40_ring_buffer.md)
  | .rbInit => Sys2Proof.Machine.execRbInit s
  | .rbIsempty => Sys2Proof.Machine.execRbIsempty s
  | .rbFree => Sys2Proof.Machine.execRbFree s
  | .rbAdd length payload => Sys2Proof.Machine.execRbAdd length payload s
  | .rbPeek => Sys2Proof.Machine.execRbPeek s
  | .rbRemove count => Sys2Proof.Machine.execRbRemove count s
  -- Serial receive and frame parser (spec/42_serial_receive.md)
  | .rxByte b => Sys2Proof.Machine.execRxByte b s
  | .rxRead => Sys2Proof.Machine.execRxRead s
  | .prsByte b => Sys2Proof.Machine.execPrsByte b s
  | .rxParse => Sys2Proof.Machine.execRxParse s
  -- Serial transmit (spec/43_serial_transmit.md)
  | .txSend length payload => Sys2Proof.Machine.execTxSend length payload s
  | .txPacket parameterId value => Sys2Proof.Machine.execTxPacket parameterId value s
  | .txByte b => Sys2Proof.Machine.execTxByte b s
  | .txDrain => Sys2Proof.Machine.execTxDrain s
  -- The wire frame (spec/30_encoding.md R120)
  | .frame parameterId value => Sys2Proof.Machine.execFrame parameterId value s

end Sys2Proof.Machine
end

