-- ==== Sys2Proof/Machine/Ports.lean ====
section
/-! DEFINITION. What a step does with the next thing the outside does (R44): a command word on a
port (R102, R106), bytes on the serial line (R305), the level of `TX_READY` (R314), nothing at
all, or reset (R350). -/

namespace Sys2Proof.Machine

open Sys2Proof

/-- A command word arriving on a port, by the check order of R106: halted, `F_ILLEGAL`,
`F_CONTEXT`, then the rule of the word. The wrong port is looked at here, the busy state in the
meaning (`command`), and the two are `accept` of R303. An ill-formed pair never gets here: it is
refused first (R103). -/
def arrive (p : Port) (cw : Word) (payload : List Byte) (s : State) :
    Host.Outcome State Fault Refusal :=
  match decode (.command cw payload) with
  | .error .payloadMismatch => .refused .payloadMismatch
  | .error _ => .next (if s.halted then s else s.raise .illegal cw)
  | .ok i =>
    if p = portOf i then exec i s
    else .next (if s.halted then s else s.raise .context cw)

/-- Five bytes arriving on the serial line. Those of a frame are the instruction FRAME; any other
five are received all the same, since nothing rejects them before the parser (R122, R210). -/
def arriveWire (bits : BitVec 40) (s : State) : Host.Outcome State Fault Refusal :=
  match decode (.wire bits) with
  | .ok i => exec i s
  | .error _ => .next (if s.halted then s else s.receiveAll (wireBytes bits))

/-- The step an input makes. -/
def takeInput (x : Input) (s : State) : Host.Outcome State Fault Refusal :=
  match x with
  | .word p cw payload => arrive p cw payload s
  | .wire bits => arriveWire bits s
  | .txReady level => .next { s with txReady := level }
  | .own => microStep s
  | .reset => .next s.restart

/-- The input that carries a packet to the BSC: a command word on the port of its row (R104), or
on the cooperative port if it is no instruction's. -/
def inputOfPacket (p : Packet) : Input :=
  match p with
  | .command cw payload =>
    match decode p with
    | .ok i => .word (portOf i) cw payload
    | .error _ => .word .coop cw payload
  | .wire bits => .wire bits

/-- One step: the next input is taken; when the outside does nothing more, the BSC goes on alone. -/
def oneStep (s : State) : Host.Outcome State Fault Refusal :=
  match s.inputs with
  | [] => microStep s
  | x :: rest => takeInput x { s with inputs := rest }

/-- The state in which the next step takes the instruction of a table word. -/
def State.placeWord (s : State) (nbits w : Nat) : State :=
  match tablePacket nbits w with
  | some p => { s with inputs := inputOfPacket p :: s.inputs }
  | none => s

end Sys2Proof.Machine
end

