-- ==== Sys2Proof/Machine/Step.lean ====
section
/-! DEFINITION. The step function and the placing of a word where the next step takes it. The BSC
fetches nothing (R31): a program is the sequence of command words HOST and the interrupts bring
(log entry 7). -/

namespace Sys2Proof.Machine

open Sys2Proof

/-- One atomic step (R16). -/
def step (s : State) : Host.Outcome State Fault Refusal := oneStep s

/-- The state in which the very next step takes the instruction whose table word is `w`. -/
def State.withFetchWord (s : State) (nbits w : Nat) : State := s.placeWord nbits w

end Sys2Proof.Machine
end

