-- ==== Sys2Proof/Laws/Decode.lean ====
section
/-! SUPPORT. The fields of an assembled command word and of an assembled wire frame (R100, R120,
R121). -/

namespace Sys2Proof

@[simp] theorem opOf_cmd32 (op a : Byte) (imm : Half) : opOf (cmd32 op a imm) = op := by
  apply BitVec.eq_of_getLsbD_eq
  intro k hk
  simp only [opOf, cmd32, BitVec.getLsbD_extractLsb', BitVec.getLsbD_append]
  have h1 : ¬ 24 + k < 16 := by omega
  have h2 : ¬ 24 + k - 16 < 8 := by omega
  simp [hk, h1, h2, show 24 + k - 16 - 8 = k by omega]

@[simp] theorem aOf_cmd32 (op a : Byte) (imm : Half) : aOf (cmd32 op a imm) = a := by
  apply BitVec.eq_of_getLsbD_eq
  intro k hk
  simp only [aOf, cmd32, BitVec.getLsbD_extractLsb', BitVec.getLsbD_append]
  have h1 : ¬ 16 + k < 16 := by omega
  simp [hk, h1]

@[simp] theorem immOf_cmd32 (op a : Byte) (imm : Half) : immOf (cmd32 op a imm) = imm := by
  apply BitVec.eq_of_getLsbD_eq
  intro k hk
  simp only [immOf, cmd32, BitVec.getLsbD_extractLsb', BitVec.getLsbD_append]
  simp [hk]

/-- A command word is its three fields (R100). -/
theorem cmd32_fields (cw : Word) : cmd32 (opOf cw) (aOf cw) (immOf cw) = cw := by
  apply BitVec.eq_of_getLsbD_eq
  intro k hk
  simp only [opOf, aOf, immOf, cmd32, BitVec.getLsbD_extractLsb', BitVec.getLsbD_append]
  by_cases h1 : k < 16
  · simp [h1]
  · by_cases h2 : k - 16 < 8
    · simp [h1, h2, show 16 + (k - 16) = k by omega]
    · simp [h1, h2, show k - 16 - 8 < 8 by omega, show 24 + (k - 16 - 8) = k by omega]

/-- No opcode but 0x13 and 0x28 calls for a payload (R107). -/
theorem payloadLength_cmd32_of_ne {op : Byte} (h : op ≠ 0x13) (h' : op ≠ 0x28) (a : Byte) (imm : Half) :
    payloadLength (cmd32 op a imm) = 0 := by
  unfold payloadLength
  rw [opOf_cmd32, if_neg]
  exact fun hop => hop.elim h h'

/-- The opcodes 0x13 and 0x28 call for `IMM` payload bytes (R103, R107). -/
theorem payloadLength_cmd32_of_eq {op : Byte} (h : op = 0x13 ∨ op = 0x28) (a : Byte) (imm : Half) :
    payloadLength (cmd32 op a imm) = imm.toNat := by
  unfold payloadLength
  rw [opOf_cmd32, if_pos h, immOf_cmd32]

theorem ifReserved_eq_ok {reservedZero : Bool} {i j : Instr} (h : ifReserved reservedZero i = .ok j) :
    reservedZero = true ∧ i = j := by
  cases reservedZero
  · cases h
  · exact ⟨rfl, Except.ok.inj h⟩

theorem ifReserved_ne_payloadMismatch (reservedZero : Bool) (i : Instr) :
    ifReserved reservedZero i ≠ .error .payloadMismatch := by
  cases reservedZero <;> simp [ifReserved]

/-- The opcode map itself refuses no byte list; `decode` has looked at its length (R103). -/
theorem decodeCommand_ne_payloadMismatch (cw : Word) (payload : List Byte) :
    decodeCommand cw payload ≠ .error .payloadMismatch := by
  unfold decodeCommand
  split <;> first
    | exact ifReserved_ne_payloadMismatch _ _
    | simp

/-- An ill-formed pair is refused as such, and nothing else is (R103). -/
theorem decode_eq_payloadMismatch_iff (cw : Word) (payload : List Byte) :
    decode (.command cw payload) = .error .payloadMismatch ↔ payload.length ≠ payloadLength cw := by
  unfold decode
  dsimp only
  split
  · next h => exact ⟨fun h' => absurd h' (decodeCommand_ne_payloadMismatch _ _), fun h' => absurd h h'⟩
  · next h => exact ⟨fun _ => h, fun _ => rfl⟩

/-- `value` is its two bytes, high byte first (R71, R121). -/
@[simp] theorem joinBytes_high_low (value : Half) : joinBytes (highByte value) (lowByte value) = value := by
  apply BitVec.eq_of_getLsbD_eq
  intro k hk
  simp only [joinBytes, highByte, lowByte, BitVec.getLsbD_extractLsb', BitVec.getLsbD_append]
  by_cases h1 : k < 8
  · simp [h1]
  · simp [h1, show k - 8 < 8 by omega, show 8 + (k - 8) = k by omega]

@[simp] theorem highByte_joinBytes (hi lo : Byte) : highByte (joinBytes hi lo) = hi := by
  apply BitVec.eq_of_getLsbD_eq
  intro k hk
  simp only [joinBytes, highByte, BitVec.getLsbD_extractLsb', BitVec.getLsbD_append]
  simp [hk, show ¬ 8 + k < 8 by omega]

@[simp] theorem lowByte_joinBytes (hi lo : Byte) : lowByte (joinBytes hi lo) = lo := by
  apply BitVec.eq_of_getLsbD_eq
  intro k hk
  simp only [joinBytes, lowByte, BitVec.getLsbD_extractLsb', BitVec.getLsbD_append]
  simp [hk]

/-- Bit `k` of the byte `n` places from the right of an assembled 40-bit pattern. -/
theorem wireBytes_append (b0 b1 b2 b3 b4 : Byte) :
    wireBytes (b0 ++ b1 ++ b2 ++ b3 ++ b4) = [b0, b1, b2, b3, b4] := by
  simp only [wireBytes, wireByte, List.cons.injEq, and_true]
  refine ⟨?_, ?_, ?_, ?_, ?_⟩ <;>
  · apply BitVec.eq_of_getLsbD_eq
    intro k hk
    simp only [BitVec.getLsbD_extractLsb', BitVec.getLsbD_append]
    interval_cases k <;> rfl

/-- The bytes of an assembled frame (R120). -/
theorem wireBytes_frameBits (parameterId : Byte) (value : Half) :
    wireBytes (frameBits parameterId value) = frameBytes parameterId value :=
  wireBytes_append _ _ _ _ _

/-- A 40-bit pattern is its five bytes. -/
theorem append_wireBytes (bits : BitVec 40) :
    (wireByte bits 0 ++ wireByte bits 1 ++ wireByte bits 2 ++ wireByte bits 3 ++ wireByte bits 4 :
      BitVec 40) = bits := by
  apply BitVec.eq_of_getLsbD_eq
  intro k hk
  simp only [wireByte, BitVec.getLsbD_extractLsb', BitVec.getLsbD_append]
  interval_cases k <;> rfl

end Sys2Proof
end

