-- ==== Sys2Proof/Laws/PerInstr.lean ====
section
/-! SUPPORT. What holds of every instruction as syntax, one lemma per constructor. Family
RoundTrip: the decoder gives a well-formed instruction back from its own packet (R104, R120). -/

namespace Sys2Proof.Laws.RoundTrip

open Sys2Proof

/-- Decoding the packet of a well-formed instruction gives it back, every operand whole. -/
def Statement (i : Instr) : Prop := i.wellFormed = true → decode (encode i) = .ok i

/-- A command without a payload whose reserved fields are zero decodes by its opcode alone. -/
theorem of_decodeCommand {i : Instr} {op a : Byte} {imm : Half} (hop : op ≠ 0x13) (hop' : op ≠ 0x28)
    (he : encode i = .command (cmd32 op a imm) []) (h : decodeCommand (cmd32 op a imm) [] = .ok i) :
    Statement i := by
  intro _
  rw [he, decode, payloadLength_cmd32_of_ne hop hop']
  exact (if_pos rfl).trans h

theorem of_payload {i : Instr} {op : Byte} {length : Half} {payload : List Byte}
    (hop : op = 0x13 ∨ op = 0x28) (hw : i.wellFormed = payloadFits length payload)
    (he : encode i = .command (cmd32 op 0 length) payload)
    (h : decodeCommand (cmd32 op 0 length) payload = .ok i) : Statement i := by
  intro hi
  rw [hw, payloadFits, beq_iff_eq] at hi
  rw [he, decode, payloadLength_cmd32_of_eq hop]
  exact (if_pos hi).trans h

theorem tmrCreate (token : Half) : Statement (.tmrCreate token) :=
  of_decodeCommand (by decide) (by decide) rfl (by simp [decodeCommand, ifReserved])

theorem tmrSetp (slot : Byte) (period : Half) : Statement (.tmrSetp slot period) :=
  of_decodeCommand (by decide) (by decide) rfl (by simp [decodeCommand, ifReserved])

theorem tmrStart (slot : Byte) (ar : Bool) : Statement (.tmrStart slot ar) := by
  cases ar <;>
  exact of_decodeCommand (by decide) (by decide) rfl (by simp [decodeCommand, ifReserved, arImm])

theorem tmrStop (slot : Byte) : Statement (.tmrStop slot) :=
  of_decodeCommand (by decide) (by decide) rfl (by simp [decodeCommand, ifReserved])

theorem tmrTick : Statement .tmrTick :=
  of_decodeCommand (by decide) (by decide) rfl (by simp [decodeCommand, ifReserved])

theorem tmrDispatch : Statement .tmrDispatch :=
  of_decodeCommand (by decide) (by decide) rfl (by simp [decodeCommand, ifReserved])

theorem tmrCbret : Statement .tmrCbret :=
  of_decodeCommand (by decide) (by decide) rfl (by simp [decodeCommand, ifReserved])

theorem rbInit : Statement .rbInit :=
  of_decodeCommand (by decide) (by decide) rfl (by simp [decodeCommand, ifReserved])

theorem rbIsempty : Statement .rbIsempty :=
  of_decodeCommand (by decide) (by decide) rfl (by simp [decodeCommand, ifReserved])

theorem rbFree : Statement .rbFree :=
  of_decodeCommand (by decide) (by decide) rfl (by simp [decodeCommand, ifReserved])

theorem rbAdd (length : Half) (payload : List Byte) : Statement (.rbAdd length payload) :=
  of_payload (.inl rfl) rfl rfl (by simp [decodeCommand, ifReserved])

theorem rbPeek : Statement .rbPeek :=
  of_decodeCommand (by decide) (by decide) rfl (by simp [decodeCommand, ifReserved])

theorem rbRemove (count : Half) : Statement (.rbRemove count) :=
  of_decodeCommand (by decide) (by decide) rfl (by simp [decodeCommand, ifReserved])

theorem rxByte (b : Byte) : Statement (.rxByte b) :=
  of_decodeCommand (by decide) (by decide) rfl (by simp [decodeCommand, ifReserved])

theorem rxRead : Statement .rxRead :=
  of_decodeCommand (by decide) (by decide) rfl (by simp [decodeCommand, ifReserved])

theorem prsByte (b : Byte) : Statement (.prsByte b) :=
  of_decodeCommand (by decide) (by decide) rfl (by simp [decodeCommand, ifReserved])

theorem rxParse : Statement .rxParse :=
  of_decodeCommand (by decide) (by decide) rfl (by simp [decodeCommand, ifReserved])

theorem txSend (length : Half) (payload : List Byte) : Statement (.txSend length payload) :=
  of_payload (.inr rfl) rfl rfl (by simp [decodeCommand, ifReserved])

theorem txPacket (parameterId : Byte) (value : Half) : Statement (.txPacket parameterId value) :=
  of_decodeCommand (by decide) (by decide) rfl (by simp [decodeCommand, ifReserved])

theorem txByte (b : Byte) : Statement (.txByte b) :=
  of_decodeCommand (by decide) (by decide) rfl (by simp [decodeCommand, ifReserved])

theorem txDrain : Statement .txDrain :=
  of_decodeCommand (by decide) (by decide) rfl (by simp [decodeCommand, ifReserved])

theorem frame (parameterId : Byte) (value : Half) : Statement (.frame parameterId value) := by
  intro _
  have h := wireBytes_frameBits parameterId value
  simp only [wireBytes, frameBytes, List.cons.injEq, and_true] at h
  simp [encode, decode, decodeWire, h]

end Sys2Proof.Laws.RoundTrip
end

