-- ==== Sys2Proof/Safety.lean ====
section
/-! DEFINITION. The terms claims are stated in: the invariants of spec/10_state.md, what is
buffered as plain lists, when a command is let in, and runs of whole dispatch passes. -/

namespace Sys2Proof.Machine

open Sys2Proof

/-! ### Invariants -/

/-- Invariant B1 (R39). -/
def State.RingOk (s : State) : Prop := s.txCnt ≤ s.txCap ∧ s.txRd < s.txCap

/-- Invariant S1 (R42). -/
def State.StagingOk (s : State) : Prop :=
  s.rxRd ≤ s.rxWr ∧ s.rxWr ≤ s.rxCap ∧ (s.rxRd < s.rxWr ∨ (s.rxRd = 0 ∧ s.rxWr = 0))

/-- Invariant T1 (R35), and its companion for `periodSet`: only TMR.SETP sets it, on a claimed slot
(R171, R172). -/
def State.TimersOk (s : State) : Prop :=
  ∀ j : Fin Config.timerSlots, s.tmrCount.val ≤ j.val →
    (s.tmr[j.val]'j.isLt).enabled = false ∧ (s.tmr[j.val]'j.isLt).periodSet = false

/-- A memory in canonical form whose listed addresses all lie below its size (R14, R37, R40). -/
def Memory.Within (m : Memory) (size : Nat) : Prop := m.wf ∧ ∀ c ∈ m.cells, c.1 < size

/-- A callback window is open on a claimed slot only (R182, R35). -/
def State.CoopOk (s : State) : Prop := ∀ i, s.coop = .callback i → i.val < s.tmrCount.val

/-- The record of a fault found by a dispatch pass carries the pass's word (R46, R182). -/
def State.FaultOk (s : State) : Prop :=
  ∀ w, s.fault = some ⟨.unsetPeriod, w⟩ → w = 0x06000000

/-- Every invariant of the BSC's state together. -/
structure State.Inv (s : State) : Prop where
  ring : s.RingOk
  staging : s.StagingOk
  timers : s.TimersOk
  txMemory : s.txMem.Within s.txCap
  rxMemory : s.rxMem.Within s.rxCap
  coop : s.CoopOk
  fault : s.FaultOk

/-! ### What is buffered -/

/-- The buffered bytes of the transmit queue, oldest first (R38, R148). -/
def State.txContents (s : State) : List Byte :=
  (List.range s.txCnt).map fun k => s.txMem.read ((s.txRd + k) % s.txCap)

/-- The staged bytes not yet read, oldest first (R41, R214). -/
def State.rxContents (s : State) : List Byte :=
  (List.range (s.rxWr - s.rxRd)).map fun k => s.rxMem.read (s.rxRd + k)

/-! ### When a command is let in (R303) -/

/-- No fault, and the cooperative port lets in every command but the four R303 names: the BSC is
idle or a callback window is open. -/
def State.Open (s : State) : Prop :=
  s.fault = none ∧ (s.coop = .idle ∨ ∃ i, s.coop = .callback i)

/-- No fault and `coop = IDLE`: the multi-step commands are let in. -/
def State.Idle (s : State) : Prop := s.fault = none ∧ s.coop = .idle

/-- Nothing arrives in the next step, which is the BSC's own: there is no input, or the next one leaves
the BSC to itself while others may stand behind it (R16, R80). -/
def State.Alone (s : State) : Prop := s.inputs = [] ∨ ∃ rest, s.inputs = .own :: rest

/-! ### Runs -/

/-- The next state of an outcome, if it is one. -/
def nextState : Host.Outcome State Fault Refusal → Option State
  | .next s => some s
  | .fault _ => none
  | .refused _ => none

/-- So many steps one after another. -/
def runSteps : Nat → State → Option State
  | 0, s => some s
  | n + 1, s => (nextState (step s)).bind (runSteps n)

/-- Instructions one after another, each on its own port, with nothing in between. -/
def execAll : List Instr → State → Option State
  | [], s => some s
  | i :: rest, s => (nextState (exec i s)).bind (execAll rest)

/-- The rest of a dispatch pass in which HOST issues nothing but the TMR.CBRET that closes each
window, and no interrupt arrives (R181 to R184); at most the given number of steps. -/
def finishPass : Nat → State → Option State
  | 0, s => if s.coop = .idle then some s else none
  | n + 1, s =>
    match s.coop with
    | .idle => some s
    | .callback _ => (nextState (exec .tmrCbret s)).bind (finishPass n)
    | .dispatch _ => (nextState (microStep s)).bind (finishPass n)
    | .parse => none
    | .drain => none

/-- A complete dispatch pass: TMR.DISPATCH, then at most `TIMER_SLOTS + 1` micro-steps and
`TIMER_SLOTS` closings of windows. -/
def dispatchPass (s : State) : Option State :=
  (nextState (exec .tmrDispatch s)).bind (finishPass (2 * Config.timerSlots + 1))

/-- `n` rounds of one tick and one complete pass. -/
def rounds : Nat → State → Option State
  | 0, s => some s
  | n + 1, s => ((nextState (exec .tmrTick s)).bind dispatchPass).bind (rounds n)

/-- How often a trace fires a slot. -/
def firesOf (slot : Byte) (trace : List Event) : Nat :=
  (trace.filter fun e =>
    match e with
    | .fire j _ => j == slot
    | _ => false).length

/-- A slot is Running and due, its period having been set (R17, R182). -/
def State.due (s : State) (j : Fin Config.timerSlots) : Bool :=
  (s.tmr[j.val]'j.isLt).enabled && (s.tmr[j.val]'j.isLt).periodSet
    && (s.tmr[j.val]'j.isLt).reached

/-- No Running slot's period is unset, so no pass faults (R182). -/
def State.PeriodsSet (s : State) : Prop :=
  ∀ j : Fin Config.timerSlots,
    (s.tmr[j.val]'j.isLt).enabled = true → (s.tmr[j.val]'j.isLt).periodSet = true

/-- A run that keeps the callers' contract: no fault has been raised (R301). A claim about safe
runs has this as its premise. -/
def State.Safe (s : State) : Prop := s.fault = none

end Sys2Proof.Machine
end

