-- ==== Sys2Proof/Certificates/Slice0/Obligations.lean ====
section
/-! DEFINITION. The statements for the provers. Each docstring names the rules of spec/ it
formalises. A state in a statement is any state; where a statement needs an invariant it says so. -/

open Sys2Proof Sys2Proof.Machine

/-! ### Encoding -/

/-- R104, R111, R120: words written out from the spec's tables decode to what they stand for. -/
def Obligations.SampleWordsDecode : Prop :=
  decode (.command 0x010000A1 []) = .ok (.tmrCreate 0x00A1) ∧
  decode (.command 0x02010005 []) = .ok (.tmrSetp 1 5) ∧
  decode (.command 0x03000001 []) = .ok (.tmrStart 0 true) ∧
  decode (.command 0x13000003 [0x11, 0x22, 0x33]) = .ok (.rbAdd 3 [0x11, 0x22, 0x33]) ∧
  decode (.command 0x22350000 []) = .ok (.prsByte 0x35) ∧
  decode (.command 0x2905BEEF []) = .ok (.txPacket 0x05 0xBEEF) ∧
  decode (.wire 0x3001006435) = .ok (.frame 0x01 0x0064)

/-- R104, R120: no operand bit of any instruction is dropped. -/
def Obligations.DecodeOfEncodeIsTheInstruction : Prop :=
  ∀ i : Instr, i.wellFormed = true → decode (encode i) = .ok i

/-- R104, R105: every packet that decodes is the packet of its instruction, so a word has one meaning and
an instruction one word. -/
def Obligations.DecodedPacketIsTheEncoding : Prop :=
  ∀ (p : Packet) (i : Instr), decode p = .ok i → encode i = p ∧ i.wellFormed = true

/-- The (match, mask) pairs of the 21 command rows of spec/opcode_table.json. -/
def commandRows : List (Word × Word) :=
  [(0x01000000, 0xFFFF0000), (0x02000000, 0xFF000000), (0x03000000, 0xFF00FFFE),
   (0x04000000, 0xFF00FFFF), (0x05000000, 0xFFFFFFFF), (0x06000000, 0xFFFFFFFF),
   (0x07000000, 0xFFFFFFFF), (0x10000000, 0xFFFFFFFF), (0x11000000, 0xFFFFFFFF),
   (0x12000000, 0xFFFFFFFF), (0x13000000, 0xFFFF0000), (0x14000000, 0xFFFFFFFF),
   (0x15000000, 0xFFFF0000), (0x20000000, 0xFF00FFFF), (0x21000000, 0xFFFFFFFF),
   (0x22000000, 0xFF00FFFF), (0x23000000, 0xFFFFFFFF), (0x28000000, 0xFFFF0000),
   (0x29000000, 0xFF000000), (0x2A000000, 0xFF00FFFF), (0x2B000000, 0xFFFFFFFF)]

/-- A word that R105 calls illegal: it fits no row of the opcode table. -/
def IllegalWord (cw : Word) : Prop := ∀ row ∈ commandRows, cw &&& row.2 ≠ row.1

/-- R105, R106: an illegal word arriving on either port raises `F_ILLEGAL` with that word, whatever
`coop` holds, and has no other effect. -/
def Obligations.IllegalWordRaisesIllegalOnly : Prop :=
  ∀ (s : State) (p : Port) (cw : Word) (payload : List Byte) (rest : List Input),
    s.fault = none → s.inputs = .word p cw payload :: rest → IllegalWord cw →
    payload.length = payloadLength cw →
    step s = .next { s with inputs := rest, fault := some ⟨.illegal, cw⟩ }

/-- R103: an ill-formed pair of RB.ADD or TX.SEND is refused before it reaches the BSC, on either port
and in every state. That a byte list that is not empty is refused beside any other word too, and a
list of the wrong length beside an illegal word, and that this comes before the check for an illegal
word and for a halted BSC, is the model's reading (log entry 11). -/
def Obligations.IllFormedPairIsRefused : Prop :=
  ∀ (s : State) (p : Port) (cw : Word) (payload : List Byte) (rest : List Input),
    s.inputs = .word p cw payload :: rest → payload.length ≠ payloadLength cw →
    step s = .refused .payloadMismatch

/-! ### Steps, ports and faults -/

/-- R106: a well-formed command arriving on its own port runs its meaning. That a frame on the wire
(R120) is taken as one instruction in one step is the model's reading (log entry 6). -/
def Obligations.StepRunsTheArrivingInstruction : Prop :=
  ∀ (s : State) (i : Instr) (rest : List Input), i.wellFormed = true →
    s.inputs = inputOfPacket (encode i) :: rest →
    step s = exec i { s with inputs := rest }

/-- R303: the clauses under which a legal command is turned away with `F_CONTEXT`. -/
def TurnedAway (i : Instr) (p : Port) (c : Coop) : Prop :=
  (i = .tmrTick ∨ ∃ b, i = .rxByte b) ∧ p = .coop ∨
  (i ≠ .tmrTick ∧ ∀ b, i ≠ .rxByte b) ∧
    (p = .irq ∨ (∃ j, c = .dispatch j) ∨ c = .parse ∨ c = .drain ∨
      (c = .idle ∧ i = .tmrCbret) ∨
      ((∃ j, c = .callback j) ∧ (i = .tmrDispatch ∨ i = .rxParse ∨ i = .txDrain)))

/-- R303: a legal command is accepted exactly when the rule says so. Turned away, it raises `F_CONTEXT`
with its word and changes nothing else, and its payload is gone with it; let in, it runs its meaning and
raises no `F_CONTEXT`. -/
def Obligations.PortAcceptance : Prop :=
  ∀ (s : State) (i : Instr) (p : Port) (cw : Word) (payload : List Byte) (rest : List Input),
    s.fault = none → i.wellFormed = true → encode i = .command cw payload →
    s.inputs = .word p cw payload :: rest →
    (TurnedAway i p s.coop →
      step s = .next { s with inputs := rest, fault := some ⟨.context, cw⟩ }) ∧
    (¬ TurnedAway i p s.coop →
      step s = exec i { s with inputs := rest } ∧
      ∀ (t : State) (w : Word), step s = .next t → t.fault ≠ some ⟨.context, w⟩)

/-- R301, R106: a halted BSC takes no step, whatever word arrives, whatever comes in on the line, and
when it is left to itself. That the model's step then answers the same state is its choice (log entry
9), and that the word or the bytes are dropped from the inputs is its reading (log entry 10). -/
def Obligations.HaltedTakesNoStep : Prop :=
  ∀ (s : State) (rest : List Input), s.fault ≠ none →
    (s.inputs = [] → step s = .next s) ∧
    (s.inputs = .own :: rest → step s = .next { s with inputs := rest }) ∧
    (∀ bits, s.inputs = .wire bits :: rest → step s = .next { s with inputs := rest }) ∧
    (∀ p cw payload, s.inputs = .word p cw payload :: rest → payload.length = payloadLength cw →
      step s = .next { s with inputs := rest })

/-- R301: the step that raises a fault changes nothing but the fault record: no result word, no event,
and no state. -/
def Obligations.RaisingChangesOnlyTheRecord : Prop :=
  ∀ s t : State, s.fault = none → step s = .next t → t.fault ≠ none →
    t = { s with inputs := s.inputs.tail, fault := t.fault }

/-- R301, R350: once set, `fault` is never cleared except by reset. -/
def Obligations.OnlyResetClearsFault : Prop :=
  ∀ s t : State, s.fault ≠ none → step s = .next t →
    t.fault = s.fault ∨ ∃ rest, s.inputs = .reset :: rest

/-- R46, R106, R182: the word a fault records is the arriving command word, or, for a fault of the BSC's
own step, the word of the dispatch pass. -/
def Obligations.FaultRecordsTheRaisingWord : Prop :=
  ∀ (s t : State) (r : FaultRecord), s.fault = none → step s = .next t → t.fault = some r →
    (∃ p payload rest, s.inputs = .word p r.word payload :: rest) ∨
    (r = ⟨.unsetPeriod, 0x06000000⟩ ∧ (s.inputs = [] ∨ ∃ rest, s.inputs = .own :: rest) ∧
      ∃ j, s.coop = .dispatch j)

/-! ### Reset -/

/-- The table of R50: the state after reset. `TX_READY` is an input and the parameters are open, so
nothing is said of either. The zeros of `elapsed`, `cb`, `autoReload`, `prsId`, `prsValue` and of
every byte of `TX` and `RX` are rows that R50 marks unobservable (R48: any value), so they are the
model's choice (log entry 12). -/
def Obligations.ResetLeavesEveryFieldAtItsValue : Prop :=
  State.reset.tmrCount.val = 0 ∧
  (∀ j : Fin Config.timerSlots, State.reset.tmr[j.val]'j.isLt =
    { period := 0, periodSet := false, elapsed := 0, cb := 0, autoReload := false, enabled := false }) ∧
  State.reset.txRd = 0 ∧ State.reset.txCnt = 0 ∧ State.reset.rxWr = 0 ∧ State.reset.rxRd = 0 ∧
  (∀ a, State.reset.txMem.read a = 0 ∧ State.reset.rxMem.read a = 0) ∧
  State.reset.prsState.counter = 0 ∧ State.reset.prsId = 0 ∧ State.reset.prsValue = 0 ∧
  State.reset.coop = .idle ∧ State.reset.fault = none ∧ State.reset.trace = []

/-- R350: reset puts every field at its reset value. That it may come as an input during a run, in any
state, is the model's reading (log entry 13); that the delivered results start anew, and that what the
outside does next and the level of `TX_READY` survive, is the model's choice (log entries 5, 4 and 8). -/
def Obligations.ResetInputRestarts : Prop :=
  ∀ (s : State) (rest : List Input), s.inputs = .reset :: rest →
    step s = .next { State.resetWith s.params s.txReady with inputs := rest }

/-! ### Invariants of every step -/

/-- B1 (R39), and T1 and S1, which the spec derives in R35 and R42, with the model's own parts of
`State.Inv`, hold after reset. -/
def Obligations.ResetMeetsInvariants : Prop := State.reset.Inv

/-- B1 (R39), and T1 and S1, which the spec derives in R35 and R42, with the model's own parts of
`State.Inv`: every step keeps them, from every state that meets them. -/
def Obligations.StepKeepsInvariants : Prop :=
  ∀ s t : State, s.Inv → step s = .next t → t.Inv

/-- R14, which the spec derives: from a state that meets the invariants nothing reads or writes
outside `TX` and `RX`. No step asks for a byte at such an index (that asking for one in a drain,
RX.READ or RX.PARSE stops the model is its reading, log entry 16); RB.PEEK does the same whatever `TX`
holds at and above its size; the places the Ring Buffer stores to lie in `TX`; and every byte outside
the two memories reads after any step as before. -/
def Obligations.InvariantsRuleOutIndexFaults : Prop :=
  ∀ s : State, s.Inv →
    (∀ f : Fault, step s ≠ .fault f) ∧
    (∀ (m : Memory) (t : State), (∀ a < s.txCap, m.read a = s.txMem.read a) →
      exec .rbPeek s = .next t → exec .rbPeek { s with txMem := m } = .next { t with txMem := m }) ∧
    (∀ k, s.txSlot k < s.txCap) ∧
    ∀ t : State, step s = .next t → ∀ a,
      (s.txCap ≤ a → t.txMem.read a = s.txMem.read a) ∧
      (s.rxCap ≤ a → t.rxMem.read a = s.rxMem.read a)

/-- R32: the parameters are fixed at build time; no step writes them. -/
def Obligations.ParametersNeverChange : Prop :=
  ∀ s t : State, step s = .next t → t.params = s.params

/-- R44, R15: the event trace is append-only; only reset starts it anew. That delivered results are
kept in a record, which likewise only grows and which reset starts anew, is the model's choice (log
entry 5). -/
def Obligations.OutputsAreAppendOnly : Prop :=
  ∀ s t : State, step s = .next t →
    (s.trace <+: t.trace ∧ s.results <+: t.results) ∨ ∃ rest, s.inputs = .reset :: rest

/-- R44, R314: `TX_READY` is the UART's to drive: no command, no event, no micro-step and no reset writes
its level. That an input of its own sets the level and changes nothing else, also while the BSC is halted,
is the model's choice (log entry 8). -/
def Obligations.OnlyTheUartDrivesTxReady : Prop :=
  ∀ s : State,
    (∀ (level : Bool) (rest : List Input), s.inputs = .txReady level :: rest →
      step s = .next { s with inputs := rest, txReady := level }) ∧
    (∀ t : State, step s = .next t →
      t.txReady = s.txReady ∨ ∃ level rest, s.inputs = .txReady level :: rest) ∧
    ∀ (i : Instr) (t : State), exec i s = .next t → t.txReady = s.txReady

/-- R34: claimed slots are never freed: short of reset `tmrCount` only increases, by at most one a
step. -/
def Obligations.ClaimedSlotsAreNeverFreed : Prop :=
  ∀ s t : State, step s = .next t →
    (t.tmrCount.val = s.tmrCount.val ∨ t.tmrCount.val = s.tmrCount.val + 1) ∨
    ∃ rest, s.inputs = .reset :: rest

/-- One staged byte is passed: the read cursor goes on and the write cursor stays, or, on the last byte,
both are reset (R213). -/
def PassesOneByte (s t : State) : Prop :=
  (t.rxRd = s.rxRd + 1 ∧ t.rxWr = s.rxWr) ∨ (s.rxRd + 1 = s.rxWr ∧ t.rxRd = 0 ∧ t.rxWr = 0)

/-- What the spec says of ownership in R81 and of contexts in R304: what each context may write. In
interrupt context only `elapsed`, `RX` and the write cursor change. In cooperative context `RX` never
does, the write cursor is at most reset, together with the read cursor and on the last staged byte,
and the timer table, the Ring Buffer and the parser change by commands of their own family only. The
micro-steps are in cooperative context too: a drain moves the ring's cursors, RX.PARSE the staging
cursors and the parser, a pass `elapsed` and `enabled`, and none writes a byte of `TX` or `RX`,
`tmrCount` or a result. -/
def Obligations.EachContextWritesItsOwnState : Prop :=
  (∀ (i : Instr) (s t : State), exec i s = .next t → t.fault = none →
    (portOf i = .irq →
      t = { s with tmr := t.tmr, rxMem := t.rxMem, rxWr := t.rxWr } ∧
      ∀ j : Fin Config.timerSlots, t.tmr[j.val]'j.isLt =
        { s.tmr[j.val]'j.isLt with elapsed := (t.tmr[j.val]'j.isLt).elapsed }) ∧
    (portOf i = .coop → t.rxMem = s.rxMem) ∧
    (portOf i = .coop → i ≠ .rxRead → t.rxWr = s.rxWr ∧ t.rxRd = s.rxRd) ∧
    (i = .rxRead → PassesOneByte s t) ∧
    ((∀ b, i ≠ .prsByte b) →
      t.prsState = s.prsState ∧ t.prsId = s.prsId ∧ t.prsValue = s.prsValue) ∧
    (t.txMem ≠ s.txMem ∨ t.txRd ≠ s.txRd ∨ t.txCnt ≠ s.txCnt →
      i = .rbInit ∨ (∃ n p, i = .rbAdd n p) ∨ (∃ n, i = .rbRemove n) ∨
      (∃ n p, i = .txSend n p) ∨ (∃ a v, i = .txPacket a v) ∨ ∃ b, i = .txByte b) ∧
    (t.tmr ≠ s.tmr ∨ t.tmrCount ≠ s.tmrCount →
      (∃ k, i = .tmrCreate k) ∨ (∃ a p, i = .tmrSetp a p) ∨ (∃ a r, i = .tmrStart a r) ∨
      (∃ a, i = .tmrStop a) ∨ i = .tmrTick)) ∧
  ∀ s t : State, microStep s = .next t →
    t.txMem = s.txMem ∧ t.rxMem = s.rxMem ∧ t.tmrCount = s.tmrCount ∧ t.results = s.results ∧
    ((t.rxWr = s.rxWr ∧ t.rxRd = s.rxRd) ∨ (s.coop = .parse ∧ PassesOneByte s t)) ∧
    (t.prsState ≠ s.prsState ∨ t.prsId ≠ s.prsId ∨ t.prsValue ≠ s.prsValue → s.coop = .parse) ∧
    (t.txRd ≠ s.txRd ∨ t.txCnt ≠ s.txCnt → s.coop = .drain) ∧
    (t.tmr ≠ s.tmr → ∃ k, s.coop = .dispatch k) ∧
    ∀ j : Fin Config.timerSlots, t.tmr[j.val]'j.isLt =
      { s.tmr[j.val]'j.isLt with
        elapsed := (t.tmr[j.val]'j.isLt).elapsed
        enabled := (t.tmr[j.val]'j.isLt).enabled }

/-! ### Soft-Timer Multiplexer -/

/-- R170: TMR.CREATE claims slot `tmrCount`, or returns 0xFF when the table is full. -/
def Obligations.CreateClaimsTheNextSlot : Prop :=
  ∀ (token : Half) (s : State), s.Open →
    (∀ h : s.tmrCount.val < Config.timerSlots, exec (.tmrCreate token) s = .next
      { s with
        tmr := s.tmr.set s.tmrCount.val { s.tmr[s.tmrCount.val]'h with cb := token, enabled := false } h
        tmrCount := ⟨s.tmrCount.val + 1, Nat.succ_lt_succ h⟩
        results := s.results ++ [BitVec.ofNat 32 s.tmrCount.val] }) ∧
    (s.tmrCount.val = Config.timerSlots → exec (.tmrCreate token) s = .next
      { s with results := s.results ++ [0x000000FF] })

/-- R172, R171: TMR.SETP writes `period` and `periodSet` of a claimed slot and nothing else; for a slot
not claimed it raises `F_BAD_SLOT` and changes nothing else. -/
def Obligations.SetpWritesPeriodOnly : Prop :=
  ∀ (slot : Byte) (period : Half) (s : State), s.Open →
    (slot.toNat < s.tmrCount.val → ∀ h : slot.toNat < Config.timerSlots,
      exec (.tmrSetp slot period) s = .next
        { s with tmr := s.tmr.set slot.toNat
                   { s.tmr[slot.toNat]'h with period := period, periodSet := true } h }) ∧
    (s.tmrCount.val ≤ slot.toNat → exec (.tmrSetp slot period) s =
      .next { s with fault := some ⟨.badSlot, 0x02#8 ++ slot ++ period⟩ })

/-- R174, R171: TMR.START restarts a claimed slot from `elapsed = 0`, Running or not, and writes nothing
else; for a slot not claimed it raises `F_BAD_SLOT` and changes nothing else. -/
def Obligations.StartArmsFromZero : Prop :=
  ∀ (slot : Byte) (ar : Bool) (s : State), s.Open →
    (slot.toNat < s.tmrCount.val → ∀ h : slot.toNat < Config.timerSlots,
      exec (.tmrStart slot ar) s = .next
        { s with tmr := s.tmr.set slot.toNat
                   { s.tmr[slot.toNat]'h with elapsed := 0, enabled := true, autoReload := ar } h }) ∧
    (s.tmrCount.val ≤ slot.toNat → exec (.tmrStart slot ar) s =
      .next { s with fault := some ⟨.badSlot, 0x03#8 ++ slot ++ (if ar then 1#16 else 0#16)⟩ })

/-- R176, R171: TMR.STOP clears `enabled` of a claimed slot and nothing else; for a slot not claimed it
raises `F_BAD_SLOT` and changes nothing else. -/
def Obligations.StopOnlyDisables : Prop :=
  ∀ (slot : Byte) (s : State), s.Open →
    (slot.toNat < s.tmrCount.val → ∀ h : slot.toNat < Config.timerSlots,
      exec (.tmrStop slot) s = .next
        { s with tmr := s.tmr.set slot.toNat { s.tmr[slot.toNat]'h with enabled := false } h }) ∧
    (s.tmrCount.val ≤ slot.toNat → exec (.tmrStop slot) s =
      .next { s with fault := some ⟨.badSlot, 0x04#8 ++ slot ++ 0#16⟩ })

/-- R178, R179: TMR.TICK is taken whatever `coop` holds, advances `elapsed` of every Running slot modulo
2^16 and changes nothing else: no event, no other field. -/
def Obligations.TickAdvancesRunningSlotsOnly : Prop :=
  ∀ s : State, s.fault = none →
    ∃ t, exec .tmrTick s = .next t ∧ t = { s with tmr := t.tmr } ∧
      ∀ j : Fin Config.timerSlots,
        ((s.tmr[j.val]'j.isLt).enabled = false → t.tmr[j.val]'j.isLt = s.tmr[j.val]'j.isLt) ∧
        ((s.tmr[j.val]'j.isLt).enabled = true → ∃ e : Half,
          e.toNat = ((s.tmr[j.val]'j.isLt).elapsed.toNat + 1) % 65536 ∧
          t.tmr[j.val]'j.isLt = { s.tmr[j.val]'j.isLt with elapsed := e })

/-- R180, R221, R255: the multi-step commands begin from `IDLE`, write `coop` and nothing else. -/
def Obligations.MultiStepCommandsBegin : Prop :=
  ∀ s : State, s.Idle →
    exec .tmrDispatch s = .next { s with coop := .dispatch 0 } ∧
    exec .rxParse s = .next { s with coop := .parse } ∧
    exec .txDrain s = .next { s with coop := .drain }

/-- R184: TMR.CBRET resumes the pass at the slot after the window's, and raises `F_CONTEXT` outside a
window. -/
def Obligations.CbretClosesTheWindow : Prop :=
  ∀ s : State, s.fault = none →
    (∀ j : Fin Config.timerSlots, s.coop = .callback j →
      exec .tmrCbret s = .next { s with coop := .dispatch j.succ }) ∧
    ((∀ j, s.coop ≠ .callback j) →
      exec .tmrCbret s = .next { s with fault := some ⟨.context, 0x07000000⟩ })

/-- R182: the dispatch micro-step, in its five cases. The re-arm or disable is in the same step as the
due test, before the callback window opens. -/
def Obligations.DispatchMicroStep : Prop :=
  ∀ (s : State) (i : Fin (Config.timerSlots + 1)), s.fault = none → s.coop = .dispatch i →
    s.Alone →
    (i.val = Config.timerSlots → step s = .next { s with inputs := s.inputs.tail, coop := .idle }) ∧
    ∀ h : i.val < Config.timerSlots,
      ((s.tmr[i.val]'h).enabled = false →
        step s = .next { s with inputs := s.inputs.tail, coop := .dispatch ⟨i.val + 1, Nat.succ_lt_succ h⟩ }) ∧
      ((s.tmr[i.val]'h).enabled = true →
        ((s.tmr[i.val]'h).periodSet = false →
          step s = .next { s with inputs := s.inputs.tail, fault := some ⟨.unsetPeriod, 0x06000000⟩ }) ∧
        ((s.tmr[i.val]'h).periodSet = true →
          ((s.tmr[i.val]'h).elapsed.toNat < (s.tmr[i.val]'h).period.toNat →
            step s = .next { s with inputs := s.inputs.tail, coop := .dispatch ⟨i.val + 1, Nat.succ_lt_succ h⟩ }) ∧
          ((s.tmr[i.val]'h).period.toNat ≤ (s.tmr[i.val]'h).elapsed.toNat →
            ((s.tmr[i.val]'h).autoReload = true → step s = .next
              { s with
                inputs := s.inputs.tail
                tmr := s.tmr.set i.val { s.tmr[i.val]'h with elapsed := 0 } h
                trace := s.trace ++ [.fire (BitVec.ofNat 8 i.val) (s.tmr[i.val]'h).cb]
                coop := .callback ⟨i.val, h⟩ }) ∧
            ((s.tmr[i.val]'h).autoReload = false → step s = .next
              { s with
                inputs := s.inputs.tail
                tmr := s.tmr.set i.val { s.tmr[i.val]'h with enabled := false } h
                trace := s.trace ++ [.fire (BitVec.ofNat 8 i.val) (s.tmr[i.val]'h).cb]
                coop := .callback ⟨i.val, h⟩ }))))

/-- R183, R31: with nothing arriving an idle BSC, one with an open callback window, and a drain that
waits for `TX_READY` (R256) take no step of their own. That the model's step then repeats the state is
its choice (log entry 9). -/
def Obligations.NothingToDoRepeatsTheState : Prop :=
  ∀ s : State, s.Alone →
    s.coop = .idle ∨ (∃ j, s.coop = .callback j) ∨
      (s.coop = .drain ∧ s.txReady = false ∧ s.txCnt ≠ 0) →
    step s = .next { s with inputs := s.inputs.tail }

/-- R181, R182: a complete pass with no Running slot unset and nothing but the closing of windows fires
exactly the slots that are due, once each, in ascending slot order, re-arms or disables those, and leaves
every other slot and every other field as it was. -/
def Obligations.PassFiresDueSlotsInOrder : Prop :=
  ∀ s : State, s.Idle → s.PeriodsSet →
    ∃ t, dispatchPass s = some t ∧
      t = { s with tmr := t.tmr, trace := t.trace } ∧
      t.trace = s.trace ++ ((List.finRange Config.timerSlots).filter s.due).map
        (fun j => .fire (BitVec.ofNat 8 j.val) (s.tmr[j.val]'j.isLt).cb) ∧
      ∀ j : Fin Config.timerSlots,
        t.tmr[j.val]'j.isLt =
          if s.due j then
            (if (s.tmr[j.val]'j.isLt).autoReload then { s.tmr[j.val]'j.isLt with elapsed := 0 }
             else { s.tmr[j.val]'j.isLt with enabled := false })
          else s.tmr[j.val]'j.isLt

/-- The law the spec derives in R188 (with one pass per tick and no command but TMR.CBRET in the
windows): an auto-reload slot of period `P >= 1` started with `elapsed = 0` has fired exactly `n / P`
times after `n` ticks, and its `elapsed` is `n mod P`. -/
def Obligations.AutoReloadFiresOncePerPeriod : Prop :=
  ∀ (n : Nat) (s : State) (j : Fin Config.timerSlots), s.Idle → s.PeriodsSet →
    (s.tmr[j.val]'j.isLt).enabled = true → (s.tmr[j.val]'j.isLt).autoReload = true →
    (s.tmr[j.val]'j.isLt).elapsed = 0 → 1 ≤ (s.tmr[j.val]'j.isLt).period.toNat →
    ∃ t, rounds n s = some t ∧
      firesOf (BitVec.ofNat 8 j.val) t.trace =
        firesOf (BitVec.ofNat 8 j.val) s.trace + n / (s.tmr[j.val]'j.isLt).period.toNat ∧
      (t.tmr[j.val]'j.isLt).elapsed.toNat = n % (s.tmr[j.val]'j.isLt).period.toNat

/-- The law the spec derives in R189 (with one pass per tick and no command but TMR.CBRET in the
windows): a one-shot slot started with `elapsed = 0` fires exactly once, in the first pass that finds
`elapsed >= period`, and is then Disabled and fires no more. A period of 0 is due in the first pass
(R187). -/
def Obligations.OneShotFiresExactlyOnce : Prop :=
  ∀ (n : Nat) (s : State) (j : Fin Config.timerSlots), s.Idle → s.PeriodsSet →
    (s.tmr[j.val]'j.isLt).enabled = true → (s.tmr[j.val]'j.isLt).autoReload = false →
    (s.tmr[j.val]'j.isLt).elapsed = 0 →
    ∃ t, rounds n s = some t ∧
      (n < max 1 (s.tmr[j.val]'j.isLt).period.toNat →
        firesOf (BitVec.ofNat 8 j.val) t.trace = firesOf (BitVec.ofNat 8 j.val) s.trace ∧
        (t.tmr[j.val]'j.isLt).enabled = true) ∧
      (max 1 (s.tmr[j.val]'j.isLt).period.toNat ≤ n →
        firesOf (BitVec.ofNat 8 j.val) t.trace = firesOf (BitVec.ofNat 8 j.val) s.trace + 1 ∧
        (t.tmr[j.val]'j.isLt).enabled = false)

/-! ### Ring Buffer -/

/-- R141: RB.INIT writes the two cursors; every byte of `TX` and every other field is unchanged. -/
def Obligations.RbInitEmpties : Prop :=
  ∀ s : State, s.Open → exec .rbInit s = .next { s with txRd := 0, txCnt := 0 }

/-- R142, R143, R145: the three queries, which change no state but their outputs. -/
def Obligations.RbQueriesOnlyAnswer : Prop :=
  ∀ s : State, s.Open → s.RingOk →
    exec .rbIsempty s = .next { s with results := s.results ++ [if s.txCnt = 0 then 1 else 0] } ∧
    (∃ r : Word, r.toNat = s.txCap - s.txCnt ∧
      exec .rbFree s = .next { s with results := s.results ++ [r] }) ∧
    ∃ (n : Word) (bytes : List Byte), n.toNat = min s.txCnt (s.txCap - s.txRd) ∧
      bytes.length = n.toNat ∧
      (∀ k < n.toNat, bytes[k]? = some (s.txMem.read (s.txRd + k))) ∧
      exec .rbPeek s = .next
        { s with trace := s.trace ++ [.data bytes], results := s.results ++ [n] }

/-- R144: RB.ADD of a payload that fits writes its bytes after the buffered ones, wrapping, and the
count; every other byte of `TX` reads as before and nothing else changes. Of more bytes than fit it
raises `F_RB_OVERFLOW` and writes no byte. -/
def Obligations.RbAddAppendsOrFaults : Prop :=
  ∀ (length : Half) (payload : List Byte) (s : State), s.Open → s.Inv →
    payload.length = length.toNat →
    (length.toNat ≤ s.txCap - s.txCnt →
      ∃ t, exec (.rbAdd length payload) s = .next t ∧
        t = { s with txMem := t.txMem, txCnt := s.txCnt + length.toNat } ∧
        (∀ k < length.toNat, some (t.txMem.read (s.txSlot k)) = payload[k]?) ∧
        ∀ a, (∀ k < length.toNat, a ≠ s.txSlot k) → t.txMem.read a = s.txMem.read a) ∧
    (s.txCap - s.txCnt < length.toNat → exec (.rbAdd length payload) s =
      .next { s with fault := some ⟨.rbOverflow, 0x13#8 ++ 0#8 ++ length⟩ })

/-- R146: RB.REMOVE advances the consumer cursor, wrapping, or raises `F_RB_UNDERFLOW`; no byte of `TX`
and no other field changes. -/
def Obligations.RbRemoveFreesOrFaults : Prop :=
  ∀ (count : Half) (s : State), s.Open →
    (count.toNat ≤ s.txCnt → exec (.rbRemove count) s = .next
      { s with txRd := (s.txRd + count.toNat) % s.txCap, txCnt := s.txCnt - count.toNat }) ∧
    (s.txCnt < count.toNat → exec (.rbRemove count) s =
      .next { s with fault := some ⟨.rbUnderflow, 0x15#8 ++ 0#8 ++ count⟩ })

/-- What a sequence of RB.ADD and RB.REMOVE adds and removes. -/
def addedBytes : List Instr → Nat
  | [] => 0
  | .rbAdd length _ :: rest => length.toNat + addedBytes rest
  | _ :: rest => addedBytes rest

/-- See `addedBytes`. -/
def removedBytes : List Instr → Nat
  | [] => 0
  | .rbRemove count :: rest => count.toNat + removedBytes rest
  | _ :: rest => removedBytes rest

/-- The law the spec derives in R147: over any sequence of RB.ADD and RB.REMOVE that raises no fault,
from an empty buffer (what reset and RB.INIT leave), the occupancy is the bytes added less the bytes
removed, and RB.FREE answers the rest of the capacity. Every prefix of a sequence is such a sequence. -/
def Obligations.RingConservesBytes : Prop :=
  ∀ (cmds : List Instr) (s t : State), s.Open → s.Inv → s.txCnt = 0 →
    (∀ i ∈ cmds, (∃ n p, i = .rbAdd n p) ∨ ∃ n, i = .rbRemove n) →
    execAll cmds s = some t → t.fault = none →
    t.txCnt + removedBytes cmds = addedBytes cmds ∧
    ∃ (r : Word) (u : State), exec .rbFree t = .next u ∧ u.results = t.results ++ [r] ∧
      r.toNat + t.txCnt = t.txCap

/-- R141, R144, R145, R146 and the law the spec derives in R148: the commands of the ring act on the list
of buffered bytes as a queue: RB.ADD appends, RB.REMOVE drops from the front, RB.INIT empties, RB.PEEK
shows a prefix, which is not empty unless the queue is. -/
def Obligations.RingIsAQueue : Prop :=
  ∀ s t : State, s.Open → s.Inv → t.fault = none →
    (∀ length payload, exec (.rbAdd length payload) s = .next t →
      t.txContents = s.txContents ++ payload) ∧
    (∀ count, exec (.rbRemove count) s = .next t →
      t.txContents = s.txContents.drop count.toNat) ∧
    (exec .rbInit s = .next t → t.txContents = []) ∧
    (exec .rbPeek s = .next t → t.txContents = s.txContents ∧
      ∃ bytes, t.trace = s.trace ++ [.data bytes] ∧ bytes <+: s.txContents ∧
        (bytes = [] → s.txContents = []))

/-- The law the spec derives in R148: repeating RB.PEEK and RB.REMOVE of the returned length yields every
buffered byte exactly once, in the order added, in at most two runs. -/
def Obligations.TwoPeeksYieldEveryByte : Prop :=
  ∀ s : State, s.Open → s.Inv →
    ∃ (n₁ n₂ : Half) (d₁ d₂ : List Byte) (t : State),
      n₁.toNat = d₁.length ∧ n₂.toNat = d₂.length ∧ d₁ ++ d₂ = s.txContents ∧
      execAll [.rbPeek, .rbRemove n₁, .rbPeek, .rbRemove n₂] s = some t ∧
      t.fault = none ∧ t.trace = s.trace ++ [.data d₁, .data d₂] ∧ t.txCnt = 0

/-! ### Serial receive and parser -/

/-- R210, R212: RX.BYTE is taken whatever `coop` holds. With room its byte is stored at the write cursor;
without, it is dropped and nothing at all changes. -/
def Obligations.RxByteStoresOrDrops : Prop :=
  ∀ (b : Byte) (s : State), s.fault = none → s.rxMem.wf →
    (s.rxWr < s.rxCap → ∃ t, exec (.rxByte b) s = .next t ∧
      t = { s with rxMem := t.rxMem, rxWr := s.rxWr + 1 } ∧
      t.rxMem.read s.rxWr = b ∧ ∀ a, a ≠ s.rxWr → t.rxMem.read a = s.rxMem.read a) ∧
    (s.rxCap ≤ s.rxWr → exec (.rxByte b) s = .next s)

/-- R213: RX.READ returns the byte at the read cursor and passes it, resetting both cursors when it was
the last; with nothing staged it raises `F_RX_EMPTY`. No byte of `RX` changes. -/
def Obligations.RxReadPopsOrFaults : Prop :=
  ∀ s : State, s.Open → s.StagingOk →
    (s.rxRd + 1 < s.rxWr → exec .rxRead s = .next
      { s with rxRd := s.rxRd + 1, results := s.results ++ [0#24 ++ s.rxMem.read s.rxRd] }) ∧
    (s.rxRd + 1 = s.rxWr → exec .rxRead s = .next
      { s with rxRd := 0, rxWr := 0, results := s.results ++ [0#24 ++ s.rxMem.read s.rxRd] }) ∧
    (s.rxRd = s.rxWr → exec .rxRead s =
      .next { s with fault := some ⟨.rxEmpty, 0x21000000⟩ })

/-- R210, R213 and the law the spec derives in R214: the staged bytes are a queue: RX.BYTE appends what
it stores, RX.READ takes the oldest. -/
def Obligations.StagingIsAQueue : Prop :=
  ∀ s t : State, s.Inv → t.fault = none →
    (∀ b, exec (.rxByte b) s = .next t →
      t.rxContents = if s.rxWr < s.rxCap then s.rxContents ++ [b] else s.rxContents) ∧
    (s.Open → exec .rxRead s = .next t → ∃ b, s.rxContents = b :: t.rxContents ∧
      t.results = s.results ++ [0#24 ++ b])

/-- R210 and the law the spec derives in R224: of any bytes received from an empty staging buffer with no
read in between exactly the first `RXBUFFER_SIZE` are kept, in order. -/
def Obligations.OverflowKeepsTheFirstBytes : Prop :=
  ∀ (bytes : List Byte) (s : State), s.fault = none → s.Inv → s.rxWr = 0 →
    ∃ t, execAll (bytes.map Instr.rxByte) s = some t ∧
      t.rxContents = bytes.take s.rxCap ∧
      t = { s with rxMem := t.rxMem, rxWr := min bytes.length s.rxCap }

/-- R216 to R219: PRS.BYTE in states 0 to 3. -/
def Obligations.ParserTakesAFrameByte : Prop :=
  ∀ (b : Byte) (s : State), s.Open →
    (s.prsState = .seeking → b = 0x30 →
      exec (.prsByte b) s = .next { s with prsState := .expectId }) ∧
    (s.prsState = .seeking → b ≠ 0x30 → exec (.prsByte b) s = .next s) ∧
    (s.prsState = .expectId →
      exec (.prsByte b) s = .next { s with prsId := b, prsState := .expectHigh }) ∧
    (s.prsState = .expectHigh →
      exec (.prsByte b) s = .next { s with prsValue := b ++ 0#8, prsState := .expectLow }) ∧
    (s.prsState = .expectLow → ∃ v : Half,
      v.toNat = (s.prsValue.toNat + b.toNat) % 65536 ∧
      exec (.prsByte b) s = .next { s with prsValue := v, prsState := .expectEnd })

/-- R220: PRS.BYTE in state 4 writes storage exactly for END_BYTE and an id in the domain of `PARAM_MAP`,
and returns to state 0 in every case. -/
def Obligations.ParserEndsTheFrame : Prop :=
  ∀ (b : Byte) (s : State), s.Open → s.prsState = .expectEnd →
    (∀ addr, b = 0x35 → lookupAddr s.params.paramMap s.prsId = some addr →
      exec (.prsByte b) s = .next
        { s with trace := s.trace ++ [.storeWrite addr s.prsValue], prsState := .seeking }) ∧
    (b = 0x35 → lookupAddr s.params.paramMap s.prsId = none →
      exec (.prsByte b) s = .next { s with prsState := .seeking }) ∧
    (b ≠ 0x35 → exec (.prsByte b) s = .next { s with prsState := .seeking })

/-- R9, R124: `PARAM_MAP` is injective on its domain, and 0x01 is in its domain, whatever the block was
built with. -/
def Obligations.ParamMapIsInjective : Prop :=
  ∀ m : ParamMap, (∃ addr, lookupAddr m 0x01 = some addr) ∧
    ∀ (i j : Byte) (addr : StorageAddr), lookupAddr m i = some addr → lookupAddr m j = some addr → i = j

/-- R216 to R220 and the assembly the spec derives in R121: the five bytes of any frame, fed one per
parse call from state 0, give back its id and its value, whichever bytes they are, and at most the one
storage write. -/
def Obligations.ParserAssemblesAnyFrame : Prop :=
  ∀ (id hi lo : Byte) (s : State), s.Open → s.prsState = .seeking →
    ∃ t, execAll ([0x30, id, hi, lo, 0x35].map Instr.prsByte) s = some t ∧
      t = { s with prsId := id, prsValue := hi ++ lo,
                   trace := s.trace ++ match lookupAddr s.params.paramMap id with
                     | some addr => [.storeWrite addr (hi ++ lo)]
                     | none => [] }

/-- The law the spec derives in R223: after any byte taken in state 4 the parser is in state 0, so a
frame with a wrong terminator followed by a good frame writes exactly the good frame. -/
def Obligations.ParserResynchronises : Prop :=
  ∀ (id hi lo bad id' hi' lo' : Byte) (s : State), s.Open → s.prsState = .seeking → bad ≠ 0x35 →
    ∃ t, execAll ([0x30, id, hi, lo, bad, 0x30, id', hi', lo', 0x35].map Instr.prsByte) s = some t ∧
      t.prsState = .seeking ∧
      t.trace = s.trace ++ match lookupAddr s.params.paramMap id' with
        | some addr => [.storeWrite addr (hi' ++ lo')]
        | none => []

/-- R221, R213: the RX.PARSE micro-step: complete when nothing is staged; else the oldest byte is passed,
both cursors reset if it was the last, and the parser takes it as PRS.BYTE would. -/
def Obligations.ParseMicroStep : Prop :=
  ∀ s : State, s.fault = none → s.StagingOk → s.coop = .parse → s.Alone →
    (s.rxRd = s.rxWr → step s = .next { s with inputs := s.inputs.tail, coop := .idle }) ∧
    (s.rxRd + 1 < s.rxWr →
      step s = .next ({ s with inputs := s.inputs.tail, rxRd := s.rxRd + 1 }.parseByte (s.rxMem.read s.rxRd))) ∧
    (s.rxRd + 1 = s.rxWr →
      step s = .next ({ s with inputs := s.inputs.tail, rxRd := 0, rxWr := 0 }.parseByte (s.rxMem.read s.rxRd)))

/-- R221 and the law the spec derives in R214: an RX.PARSE that nothing interrupts parses every staged
byte, in order, and ends, after one micro-step more than there were bytes, with both cursors at 0. -/
def Obligations.ParseRunConsumesEveryByte : Prop :=
  ∀ s : State, s.fault = none → s.Inv → s.coop = .parse → s.inputs = [] →
    runSteps (s.rxWr - s.rxRd + 1) s = some
      { s.rxContents.foldl State.parseByte s with rxRd := 0, rxWr := 0, coop := .idle }

/-- R120, R210, R305 (that a frame arriving is five RX.BYTE events with nothing in between is the model's
reading, log entry 6): FRAME does what the five RX.BYTE do one after another, and with room for five
leaves its bytes staged in wire order, high byte first, and changes nothing else. -/
def Obligations.FrameArrivesAsFiveBytes : Prop :=
  ∀ (id : Byte) (value : Half) (s : State), s.fault = none →
    ∃ t, exec (.frame id value) s = .next t ∧
      execAll ([0x30, id, value.extractLsb' 8 8, value.extractLsb' 0 8, 0x35].map Instr.rxByte) s = some t ∧
      (s.rxMem.wf → s.rxWr + 5 ≤ s.rxCap →
        t = { s with rxMem := t.rxMem, rxWr := s.rxWr + 5 } ∧
        t.rxMem.read s.rxWr = 0x30 ∧ t.rxMem.read (s.rxWr + 1) = id ∧
        t.rxMem.read (s.rxWr + 2) = value.extractLsb' 8 8 ∧
        t.rxMem.read (s.rxWr + 3) = value.extractLsb' 0 8 ∧ t.rxMem.read (s.rxWr + 4) = 0x35 ∧
        ∀ a, (a < s.rxWr ∨ s.rxWr + 5 ≤ a) → t.rxMem.read a = s.rxMem.read a)

/-- R120, R122, R210, R305 (that bytes on the wire come as five RX.BYTE events with nothing in between is
the model's reading, log entry 6): any five bytes on the wire, whether or not they are a frame, are
received as RX.BYTE receives them one after another, in wire order, first byte in bits 39:32. -/
def Obligations.AnyFiveWireBytesAreReceived : Prop :=
  ∀ (bits : BitVec 40) (s : State) (rest : List Input), s.fault = none →
    s.inputs = .wire bits :: rest →
    ∃ t, step s = .next t ∧
      execAll ([bits.extractLsb' 32 8, bits.extractLsb' 24 8, bits.extractLsb' 16 8,
        bits.extractLsb' 8 8, bits.extractLsb' 0 8].map Instr.rxByte) { s with inputs := rest } = some t

/-- R120, R121, R216 to R221 (the arrival as in `FrameArrivesAsFiveBytes`, log entry 6): a frame on the
wire, then RX.PARSE and six micro-steps, from an idle BSC with nothing staged, the parser seeking and
room for five bytes, writes the frame's value to its id's address, exactly once, and nothing for an
unknown id. -/
def Obligations.FrameOnTheWireReachesStorage : Prop :=
  ∀ (id : Byte) (value : Half) (s : State), s.Idle → s.Inv → s.rxWr = 0 → 5 ≤ s.rxCap →
    s.prsState = .seeking →
    s.inputs = [.wire (0x30#8 ++ id ++ value ++ 0x35#8), .word .coop 0x23000000 []] →
    ∃ t, runSteps 8 s = some t ∧ t.coop = .idle ∧ t.fault = none ∧
      t.prsState = .seeking ∧ t.rxRd = 0 ∧ t.rxWr = 0 ∧
      t.trace = s.trace ++ match lookupAddr s.params.paramMap id with
        | some addr => [.storeWrite addr value]
        | none => []

/-- What the spec derives in R306: the two interrupt events commute: delivered in either order they give
the same state and no output. -/
def Obligations.InterruptEventsCommute : Prop :=
  ∀ (b : Byte) (s : State),
    execAll [.tmrTick, .rxByte b] s = execAll [.rxByte b, .tmrTick] s ∧
    ∀ t, execAll [.tmrTick, .rxByte b] s = some t → t.trace = s.trace ∧ t.results = s.results

/-! ### Serial transmit -/

/-- The three enqueue commands with the bytes each appends (R251, R252, R253; R120 for the frame). -/
def SendsBytes (i : Instr) (bytes : List Byte) : Prop :=
  (∃ length : Half, bytes.length = length.toNat ∧ i = .txSend length bytes) ∨
  (∃ (id : Byte) (value : Half), i = .txPacket id value ∧
    bytes = [0x30, id, value.extractLsb' 8 8, value.extractLsb' 0 8, 0x35]) ∨
  (∃ b : Byte, i = .txByte b ∧ bytes = [b])

/-- R251, R252, R253: TX.SEND, TX.PACKET and TX.BYTE with enough room append all their bytes and return
1, and every other byte of `TX` reads as before; without enough room they return 0; and nothing else
changes either way. -/
def Obligations.SendEnqueuesAllOrNothing : Prop :=
  ∀ (i : Instr) (bytes : List Byte) (s : State), SendsBytes i bytes → s.Open → s.Inv →
    (bytes.length ≤ s.txCap - s.txCnt →
      ∃ t, exec i s = .next t ∧
        t = { s with txMem := t.txMem, txCnt := s.txCnt + bytes.length, results := s.results ++ [1] } ∧
        (∀ k < bytes.length, some (t.txMem.read (s.txSlot k)) = bytes[k]?) ∧
        ∀ a, (∀ k < bytes.length, a ≠ s.txSlot k) → t.txMem.read a = s.txMem.read a) ∧
    (s.txCap - s.txCnt < bytes.length →
      exec i s = .next { s with results := s.results ++ [0] })

/-- R257: the drain micro-step: complete when the buffer is empty; else, with `TX_READY` at 1, the oldest
byte is sent out and removed. No byte of `TX` changes. -/
def Obligations.DrainMicroStep : Prop :=
  ∀ s : State, s.fault = none → s.RingOk → s.coop = .drain → s.Alone →
    (s.txCnt = 0 → step s = .next { s with inputs := s.inputs.tail, coop := .idle }) ∧
    (s.txCnt ≠ 0 → s.txReady = true → step s = .next
      { s with
        inputs := s.inputs.tail
        trace := s.trace ++ [.uartTx (s.txMem.read s.txRd)]
        txRd := (s.txRd + 1) % s.txCap
        txCnt := s.txCnt - 1 })

/-- R257 and the law the spec derives in R258: a drain with `TX_READY` held at 1 sends exactly the
buffered bytes in FIFO order, across the wrap, and ends empty after one micro-step more than there were
bytes. -/
def Obligations.DrainRunSendsEveryByte : Prop :=
  ∀ s : State, s.fault = none → s.Inv → s.coop = .drain → s.txReady = true → s.inputs = [] →
    runSteps (s.txCnt + 1) s = some
      { s with
        trace := s.trace ++ s.txContents.map Event.uartTx
        txRd := (s.txRd + s.txCnt) % s.txCap
        txCnt := 0
        coop := .idle }

/-- R303 and the law the spec derives in R258: during a drain nothing that arrives adds to the queue:
each step either faults, resets, or leaves what is still buffered a suffix of what was. -/
def Obligations.NothingIsAddedDuringADrain : Prop :=
  ∀ s t : State, s.Inv → s.coop = .drain → step s = .next t →
    t.txContents <:+ s.txContents ∨ ∃ rest, s.inputs = .reset :: rest

/-! ### Assembler -/

/-- R112: `tmr.arm` is TMR.SETP then TMR.START: from any state that lets commands in, a claimed slot ends
Running from `elapsed = 0` with that period. -/
def Obligations.ArmSetsPeriodAndStarts : Prop :=
  ∀ (slot : Byte) (period : Half) (ar : Bool) (s : State), s.Open → slot.toNat < s.tmrCount.val →
    ∀ h : slot.toNat < Config.timerSlots,
      execAll (Pseudo.tmrArm slot period ar).expand s = some
        { s with tmr := s.tmr.set slot.toNat
                   { s.tmr[slot.toNat]'h with period := period, periodSet := true, elapsed := 0,
                                              enabled := true, autoReload := ar } h }
end

