-- ==== Sys2Proof/Laws/Memory.lean ====
section
/-! SUPPORT. The laws of the byte memories: a read after a write, the canonical form kept, and
runs of bytes written around the ring (R14, R70, R144). -/

namespace Sys2Proof.Machine

open Sys2Proof

namespace Memory

@[simp] theorem readCells_nil (a : Nat) : readCells [] a = blank := rfl

theorem readCells_of_lt {cells : List Host.Cell} {a : Nat} (h : ∀ c ∈ cells, a < c.1) :
    readCells cells a = blank := by
  induction cells with
  | nil => rfl
  | cons c rest ih =>
    have hc := h c (by simp)
    simp only [readCells, if_neg (Nat.ne_of_gt hc)]
    exact ih fun d hd => h d (by simp [hd])

theorem readCells_write_other (cells : List Host.Cell) {a b : Nat} (v : Byte) (h : b ≠ a) :
    readCells (writeCells cells a v) b = readCells cells b := by
  induction cells with
  | nil =>
    unfold writeCells
    split <;> simp [readCells, h.symm]
  | cons c rest ih =>
    unfold writeCells
    split
    · split <;> simp [readCells, h.symm]
    · split
      · next hac => split <;> simp [readCells, ← hac, h.symm]
      · simp [readCells, ih]

theorem readCells_write_same {cells : List Host.Cell} (a : Nat) (v : Byte)
    (h : cells.Pairwise fun c d => c.1 < d.1) : readCells (writeCells cells a v) a = v := by
  induction cells with
  | nil =>
    unfold writeCells
    split <;> simp_all [readCells]
  | cons c rest ih =>
    rw [List.pairwise_cons] at h
    unfold writeCells
    split
    · next hac =>
      split
      · next hv =>
        rw [hv]
        exact readCells_of_lt fun d hd => by
          rcases List.mem_cons.mp hd with rfl | hd
          · exact hac
          · exact Nat.lt_trans hac (h.1 d hd)
      · simp [readCells]
    · split
      · next hac =>
        split
        · next hv =>
          rw [hv]
          exact readCells_of_lt fun d hd => hac ▸ h.1 d hd
        · simp [readCells]
      · next hac =>
        simp only [readCells, if_neg (Ne.symm hac)]
        exact ih h.2

theorem mem_writeCells {cells : List Host.Cell} {a : Nat} {v : Byte} {c : Host.Cell}
    (h : c ∈ writeCells cells a v) : c = (a, v) ∧ v ≠ blank ∨ c ∈ cells := by
  induction cells with
  | nil =>
    unfold writeCells at h
    split at h <;> simp_all
  | cons d rest ih =>
    unfold writeCells at h
    split at h
    · split at h
      · exact .inr h
      · rcases List.mem_cons.mp h with rfl | h
        · exact .inl ⟨rfl, ‹_›⟩
        · exact .inr h
    · split at h
      · split at h
        · exact .inr (List.mem_cons_of_mem _ h)
        · rcases List.mem_cons.mp h with rfl | h
          · exact .inl ⟨rfl, ‹_›⟩
          · exact .inr (List.mem_cons_of_mem _ h)
      · rcases List.mem_cons.mp h with rfl | h
        · exact .inr (by simp)
        · exact (ih h).imp_right (List.mem_cons_of_mem _)

theorem writeCells_rising {cells : List Host.Cell} (a : Nat) (v : Byte)
    (h : cells.Pairwise fun c d => c.1 < d.1) :
    (writeCells cells a v).Pairwise fun c d => c.1 < d.1 := by
  induction cells with
  | nil =>
    unfold writeCells
    split <;> simp
  | cons c rest ih =>
    have hh := List.pairwise_cons.mp h
    unfold writeCells
    split
    · next hac =>
      split
      · exact h
      · refine List.pairwise_cons.mpr ⟨fun d hd => ?_, h⟩
        rcases List.mem_cons.mp hd with rfl | hd
        · exact hac
        · exact Nat.lt_trans hac (hh.1 d hd)
    · split
      · next hac =>
        split
        · exact hh.2
        · exact List.pairwise_cons.mpr ⟨fun d hd => hac ▸ hh.1 d hd, hh.2⟩
      · next h1 h2 =>
        refine List.pairwise_cons.mpr ⟨fun d hd => ?_, ih hh.2⟩
        rcases mem_writeCells hd with ⟨rfl, -⟩ | hd
        · exact Nat.lt_of_le_of_ne (Nat.le_of_not_lt h1) (Ne.symm h2)
        · exact hh.1 d hd

/-- A byte reads as what was last written to it. -/
theorem read_write_same {m : Memory} (h : m.wf) (a : Nat) (v : Byte) : (m.write a v).read a = v :=
  readCells_write_same a v h.1

/-- A write leaves every other byte alone. -/
theorem read_write_other (m : Memory) {a b : Nat} (v : Byte) (h : b ≠ a) :
    (m.write a v).read b = m.read b := readCells_write_other m.cells v h

/-- A write keeps the canonical form. -/
theorem write_wf {m : Memory} (h : m.wf) (a : Nat) (v : Byte) : (m.write a v).wf :=
  ⟨writeCells_rising a v h.1, fun c hc => by
    rcases mem_writeCells hc with ⟨rfl, hv⟩ | hc
    · exact hv
    · exact h.2 c hc⟩

theorem empty_wf : empty.wf := ⟨List.Pairwise.nil, by simp [empty]⟩

/-- Every address listed after a write was listed before or is the written one. -/
theorem addr_of_mem_write {m : Memory} {a : Nat} {v : Byte} {c : Host.Cell}
    (h : c ∈ (m.write a v).cells) : c.1 = a ∨ c ∈ m.cells :=
  (mem_writeCells h).imp_left fun h => by rw [h.1]

theorem writeRing_wf {m : Memory} (h : m.wf) (cap at_ : Nat) (bytes : List Byte) :
    (m.writeRing cap at_ bytes).wf := by
  induction bytes generalizing m at_ with
  | nil => exact h
  | cons b rest ih => exact ih (write_wf h _ _) _

theorem addr_of_mem_writeRing {m : Memory} {cap at_ : Nat} {bytes : List Byte} {c : Host.Cell}
    (hcap : 0 < cap) (h : c ∈ (m.writeRing cap at_ bytes).cells) : c.1 < cap ∨ c ∈ m.cells := by
  induction bytes generalizing m at_ with
  | nil => exact .inr h
  | cons b rest ih =>
    rcases ih h with h | h
    · exact .inl h
    · rcases addr_of_mem_write h with h | h
      · exact .inl (h ▸ Nat.mod_lt _ hcap)
      · exact .inr h

/-- A byte none of the written places holds reads as before. -/
theorem read_writeRing_other {m : Memory} {cap at_ a : Nat} {bytes : List Byte}
    (h : ∀ k < bytes.length, a ≠ (at_ + k) % cap) : (m.writeRing cap at_ bytes).read a = m.read a := by
  induction bytes generalizing m at_ with
  | nil => rfl
  | cons b rest ih =>
    rw [writeRing, ih (fun k hk => ?_), read_write_other]
    · simpa using h 0 (by simp)
    · have := h (k + 1) (by simpa using hk)
      rwa [Nat.add_right_comm, Nat.add_assoc]

theorem mod_add_injective {cap at_ j k : Nat} (hjk : j < k) (hk : k < at_ + cap) (hj : at_ ≤ j) :
    j % cap ≠ k % cap := by
  intro h
  have hd : cap ∣ k - j := (Nat.modEq_iff_dvd' (Nat.le_of_lt hjk)).mp h
  have := Nat.le_of_dvd (by omega) hd
  omega

/-- The `k`-th written byte, when the bytes do not overrun the ring. -/
theorem read_writeRing_at {m : Memory} (hm : m.wf) {cap at_ k : Nat} {bytes : List Byte}
    (hlen : bytes.length ≤ cap) (hk : k < bytes.length) :
    (m.writeRing cap at_ bytes).read ((at_ + k) % cap) = bytes[k] := by
  induction bytes generalizing m at_ k with
  | nil => simp at hk
  | cons b rest ih =>
    have hlen' : rest.length + 1 ≤ cap := hlen
    have hk' : k < rest.length + 1 := hk
    rw [writeRing]
    cases k with
    | zero =>
      rw [read_writeRing_other, Nat.add_zero, read_write_same hm]
      · rfl
      · intro j hj
        exact mod_add_injective (at_ := at_) (by omega) (by omega) (by omega)
    | succ k =>
      have h := ih (write_wf hm (at_ % cap) b) (at_ := at_ + 1) (k := k) (by omega) (by omega)
      rw [show at_ + (k + 1) = at_ + 1 + k by omega, h]
      rfl

/-- A run read in ascending order is the list of its bytes. -/
theorem readRun_eq_map (m : Memory) (at_ n : Nat) :
    m.readRun at_ n = (List.range n).map fun k => m.read (at_ + k) := by
  induction n generalizing at_ with
  | zero => rfl
  | succ n ih =>
    rw [readRun, ih, List.range_succ_eq_map, List.map_cons, List.map_map]
    refine congrArg _ (List.map_congr_left fun k _ => ?_)
    rw [Function.comp_apply, Nat.succ_eq_add_one, Nat.add_comm k 1, Nat.add_assoc]

/-- A run depends on the bytes of its own indices only. -/
theorem readRun_of_same_bytes {m m' : Memory} {at_ n : Nat}
    (h : ∀ k < n, m'.read (at_ + k) = m.read (at_ + k)) : m'.readRun at_ n = m.readRun at_ n := by
  rw [readRun_eq_map, readRun_eq_map]
  exact List.map_congr_left fun k hk => h k (List.mem_range.mp hk)

/-- An address that no listed cell has reads as blank. -/
theorem read_of_not_listed {m : Memory} {a : Nat} (h : ∀ c ∈ m.cells, c.1 ≠ a) :
    m.read a = blank := by
  obtain ⟨cells⟩ := m
  induction cells with
  | nil => rfl
  | cons c rest ih =>
    exact (if_neg (h c (by simp))).trans (ih fun d hd => h d (by simp [hd]))

end Memory

end Sys2Proof.Machine
end

