-- ==== Sys2Proof/Laws/State.lean ====
section
/-! SUPPORT. One lemma per field per named update of the state, so that no later proof unfolds a
record update. -/

namespace Sys2Proof.Machine

open Sys2Proof

variable (s : State)

/-! ### `emit`: Appending an event (R15). -/

@[simp] theorem State.emit_params (e : Event) : (s.emit e).params = s.params := rfl
@[simp] theorem State.emit_tmr (e : Event) : (s.emit e).tmr = s.tmr := rfl
@[simp] theorem State.emit_tmrCount (e : Event) : (s.emit e).tmrCount = s.tmrCount := rfl
@[simp] theorem State.emit_txMem (e : Event) : (s.emit e).txMem = s.txMem := rfl
@[simp] theorem State.emit_txRd (e : Event) : (s.emit e).txRd = s.txRd := rfl
@[simp] theorem State.emit_txCnt (e : Event) : (s.emit e).txCnt = s.txCnt := rfl
@[simp] theorem State.emit_rxMem (e : Event) : (s.emit e).rxMem = s.rxMem := rfl
@[simp] theorem State.emit_rxWr (e : Event) : (s.emit e).rxWr = s.rxWr := rfl
@[simp] theorem State.emit_rxRd (e : Event) : (s.emit e).rxRd = s.rxRd := rfl
@[simp] theorem State.emit_prsState (e : Event) : (s.emit e).prsState = s.prsState := rfl
@[simp] theorem State.emit_prsId (e : Event) : (s.emit e).prsId = s.prsId := rfl
@[simp] theorem State.emit_prsValue (e : Event) : (s.emit e).prsValue = s.prsValue := rfl
@[simp] theorem State.emit_coop (e : Event) : (s.emit e).coop = s.coop := rfl
@[simp] theorem State.emit_fault (e : Event) : (s.emit e).fault = s.fault := rfl
@[simp] theorem State.emit_txReady (e : Event) : (s.emit e).txReady = s.txReady := rfl
@[simp] theorem State.emit_inputs (e : Event) : (s.emit e).inputs = s.inputs := rfl
@[simp] theorem State.emit_trace (e : Event) : (s.emit e).trace = s.trace ++ [e] := rfl
@[simp] theorem State.emit_results (e : Event) : (s.emit e).results = s.results := rfl

/-! ### `deliver`: Delivering a result word (R108). -/

@[simp] theorem State.deliver_params (v : Word) : (s.deliver v).params = s.params := rfl
@[simp] theorem State.deliver_tmr (v : Word) : (s.deliver v).tmr = s.tmr := rfl
@[simp] theorem State.deliver_tmrCount (v : Word) : (s.deliver v).tmrCount = s.tmrCount := rfl
@[simp] theorem State.deliver_txMem (v : Word) : (s.deliver v).txMem = s.txMem := rfl
@[simp] theorem State.deliver_txRd (v : Word) : (s.deliver v).txRd = s.txRd := rfl
@[simp] theorem State.deliver_txCnt (v : Word) : (s.deliver v).txCnt = s.txCnt := rfl
@[simp] theorem State.deliver_rxMem (v : Word) : (s.deliver v).rxMem = s.rxMem := rfl
@[simp] theorem State.deliver_rxWr (v : Word) : (s.deliver v).rxWr = s.rxWr := rfl
@[simp] theorem State.deliver_rxRd (v : Word) : (s.deliver v).rxRd = s.rxRd := rfl
@[simp] theorem State.deliver_prsState (v : Word) : (s.deliver v).prsState = s.prsState := rfl
@[simp] theorem State.deliver_prsId (v : Word) : (s.deliver v).prsId = s.prsId := rfl
@[simp] theorem State.deliver_prsValue (v : Word) : (s.deliver v).prsValue = s.prsValue := rfl
@[simp] theorem State.deliver_coop (v : Word) : (s.deliver v).coop = s.coop := rfl
@[simp] theorem State.deliver_fault (v : Word) : (s.deliver v).fault = s.fault := rfl
@[simp] theorem State.deliver_txReady (v : Word) : (s.deliver v).txReady = s.txReady := rfl
@[simp] theorem State.deliver_inputs (v : Word) : (s.deliver v).inputs = s.inputs := rfl
@[simp] theorem State.deliver_trace (v : Word) : (s.deliver v).trace = s.trace := rfl
@[simp] theorem State.deliver_results (v : Word) : (s.deliver v).results = s.results ++ [v] := rfl

/-! ### `raise`: Raising a fault (R301). -/

@[simp] theorem State.raise_params (code : FaultCode) (word : Word) : (s.raise code word).params = s.params := rfl
@[simp] theorem State.raise_tmr (code : FaultCode) (word : Word) : (s.raise code word).tmr = s.tmr := rfl
@[simp] theorem State.raise_tmrCount (code : FaultCode) (word : Word) : (s.raise code word).tmrCount = s.tmrCount := rfl
@[simp] theorem State.raise_txMem (code : FaultCode) (word : Word) : (s.raise code word).txMem = s.txMem := rfl
@[simp] theorem State.raise_txRd (code : FaultCode) (word : Word) : (s.raise code word).txRd = s.txRd := rfl
@[simp] theorem State.raise_txCnt (code : FaultCode) (word : Word) : (s.raise code word).txCnt = s.txCnt := rfl
@[simp] theorem State.raise_rxMem (code : FaultCode) (word : Word) : (s.raise code word).rxMem = s.rxMem := rfl
@[simp] theorem State.raise_rxWr (code : FaultCode) (word : Word) : (s.raise code word).rxWr = s.rxWr := rfl
@[simp] theorem State.raise_rxRd (code : FaultCode) (word : Word) : (s.raise code word).rxRd = s.rxRd := rfl
@[simp] theorem State.raise_prsState (code : FaultCode) (word : Word) : (s.raise code word).prsState = s.prsState := rfl
@[simp] theorem State.raise_prsId (code : FaultCode) (word : Word) : (s.raise code word).prsId = s.prsId := rfl
@[simp] theorem State.raise_prsValue (code : FaultCode) (word : Word) : (s.raise code word).prsValue = s.prsValue := rfl
@[simp] theorem State.raise_coop (code : FaultCode) (word : Word) : (s.raise code word).coop = s.coop := rfl
@[simp] theorem State.raise_fault (code : FaultCode) (word : Word) : (s.raise code word).fault = some ⟨code, word⟩ := rfl
@[simp] theorem State.raise_txReady (code : FaultCode) (word : Word) : (s.raise code word).txReady = s.txReady := rfl
@[simp] theorem State.raise_inputs (code : FaultCode) (word : Word) : (s.raise code word).inputs = s.inputs := rfl
@[simp] theorem State.raise_trace (code : FaultCode) (word : Word) : (s.raise code word).trace = s.trace := rfl
@[simp] theorem State.raise_results (code : FaultCode) (word : Word) : (s.raise code word).results = s.results := rfl

/-! ### `setTimer`: Rewriting one slot (R33). -/

@[simp] theorem State.setTimer_params (i : Fin Config.timerSlots) (t : Timer) : (s.setTimer i t).params = s.params := rfl
@[simp] theorem State.setTimer_tmr (i : Fin Config.timerSlots) (t : Timer) : (s.setTimer i t).tmr = s.tmr.set i.val t i.isLt := rfl
@[simp] theorem State.setTimer_tmrCount (i : Fin Config.timerSlots) (t : Timer) : (s.setTimer i t).tmrCount = s.tmrCount := rfl
@[simp] theorem State.setTimer_txMem (i : Fin Config.timerSlots) (t : Timer) : (s.setTimer i t).txMem = s.txMem := rfl
@[simp] theorem State.setTimer_txRd (i : Fin Config.timerSlots) (t : Timer) : (s.setTimer i t).txRd = s.txRd := rfl
@[simp] theorem State.setTimer_txCnt (i : Fin Config.timerSlots) (t : Timer) : (s.setTimer i t).txCnt = s.txCnt := rfl
@[simp] theorem State.setTimer_rxMem (i : Fin Config.timerSlots) (t : Timer) : (s.setTimer i t).rxMem = s.rxMem := rfl
@[simp] theorem State.setTimer_rxWr (i : Fin Config.timerSlots) (t : Timer) : (s.setTimer i t).rxWr = s.rxWr := rfl
@[simp] theorem State.setTimer_rxRd (i : Fin Config.timerSlots) (t : Timer) : (s.setTimer i t).rxRd = s.rxRd := rfl
@[simp] theorem State.setTimer_prsState (i : Fin Config.timerSlots) (t : Timer) : (s.setTimer i t).prsState = s.prsState := rfl
@[simp] theorem State.setTimer_prsId (i : Fin Config.timerSlots) (t : Timer) : (s.setTimer i t).prsId = s.prsId := rfl
@[simp] theorem State.setTimer_prsValue (i : Fin Config.timerSlots) (t : Timer) : (s.setTimer i t).prsValue = s.prsValue := rfl
@[simp] theorem State.setTimer_coop (i : Fin Config.timerSlots) (t : Timer) : (s.setTimer i t).coop = s.coop := rfl
@[simp] theorem State.setTimer_fault (i : Fin Config.timerSlots) (t : Timer) : (s.setTimer i t).fault = s.fault := rfl
@[simp] theorem State.setTimer_txReady (i : Fin Config.timerSlots) (t : Timer) : (s.setTimer i t).txReady = s.txReady := rfl
@[simp] theorem State.setTimer_inputs (i : Fin Config.timerSlots) (t : Timer) : (s.setTimer i t).inputs = s.inputs := rfl
@[simp] theorem State.setTimer_trace (i : Fin Config.timerSlots) (t : Timer) : (s.setTimer i t).trace = s.trace := rfl
@[simp] theorem State.setTimer_results (i : Fin Config.timerSlots) (t : Timer) : (s.setTimer i t).results = s.results := rfl

/-! ### `enqueue`: Appending bytes to the Ring Buffer (R144). -/

@[simp] theorem State.enqueue_params (bytes : List Byte) : (s.enqueue bytes).params = s.params := rfl
@[simp] theorem State.enqueue_tmr (bytes : List Byte) : (s.enqueue bytes).tmr = s.tmr := rfl
@[simp] theorem State.enqueue_tmrCount (bytes : List Byte) : (s.enqueue bytes).tmrCount = s.tmrCount := rfl
@[simp] theorem State.enqueue_txMem (bytes : List Byte) :
    (s.enqueue bytes).txMem = s.txMem.writeRing s.txCap (s.txRd + s.txCnt) bytes := rfl
@[simp] theorem State.enqueue_txRd (bytes : List Byte) : (s.enqueue bytes).txRd = s.txRd := rfl
@[simp] theorem State.enqueue_txCnt (bytes : List Byte) : (s.enqueue bytes).txCnt = s.txCnt + bytes.length := rfl
@[simp] theorem State.enqueue_rxMem (bytes : List Byte) : (s.enqueue bytes).rxMem = s.rxMem := rfl
@[simp] theorem State.enqueue_rxWr (bytes : List Byte) : (s.enqueue bytes).rxWr = s.rxWr := rfl
@[simp] theorem State.enqueue_rxRd (bytes : List Byte) : (s.enqueue bytes).rxRd = s.rxRd := rfl
@[simp] theorem State.enqueue_prsState (bytes : List Byte) : (s.enqueue bytes).prsState = s.prsState := rfl
@[simp] theorem State.enqueue_prsId (bytes : List Byte) : (s.enqueue bytes).prsId = s.prsId := rfl
@[simp] theorem State.enqueue_prsValue (bytes : List Byte) : (s.enqueue bytes).prsValue = s.prsValue := rfl
@[simp] theorem State.enqueue_coop (bytes : List Byte) : (s.enqueue bytes).coop = s.coop := rfl
@[simp] theorem State.enqueue_fault (bytes : List Byte) : (s.enqueue bytes).fault = s.fault := rfl
@[simp] theorem State.enqueue_txReady (bytes : List Byte) : (s.enqueue bytes).txReady = s.txReady := rfl
@[simp] theorem State.enqueue_inputs (bytes : List Byte) : (s.enqueue bytes).inputs = s.inputs := rfl
@[simp] theorem State.enqueue_trace (bytes : List Byte) : (s.enqueue bytes).trace = s.trace := rfl
@[simp] theorem State.enqueue_results (bytes : List Byte) : (s.enqueue bytes).results = s.results := rfl

/-! ### `dequeue`: Freeing bytes of the Ring Buffer (R146). -/

@[simp] theorem State.dequeue_params (count : Nat) : (s.dequeue count).params = s.params := rfl
@[simp] theorem State.dequeue_tmr (count : Nat) : (s.dequeue count).tmr = s.tmr := rfl
@[simp] theorem State.dequeue_tmrCount (count : Nat) : (s.dequeue count).tmrCount = s.tmrCount := rfl
@[simp] theorem State.dequeue_txMem (count : Nat) : (s.dequeue count).txMem = s.txMem := rfl
@[simp] theorem State.dequeue_txRd (count : Nat) : (s.dequeue count).txRd = (s.txRd + count) % s.txCap := rfl
@[simp] theorem State.dequeue_txCnt (count : Nat) : (s.dequeue count).txCnt = s.txCnt - count := rfl
@[simp] theorem State.dequeue_rxMem (count : Nat) : (s.dequeue count).rxMem = s.rxMem := rfl
@[simp] theorem State.dequeue_rxWr (count : Nat) : (s.dequeue count).rxWr = s.rxWr := rfl
@[simp] theorem State.dequeue_rxRd (count : Nat) : (s.dequeue count).rxRd = s.rxRd := rfl
@[simp] theorem State.dequeue_prsState (count : Nat) : (s.dequeue count).prsState = s.prsState := rfl
@[simp] theorem State.dequeue_prsId (count : Nat) : (s.dequeue count).prsId = s.prsId := rfl
@[simp] theorem State.dequeue_prsValue (count : Nat) : (s.dequeue count).prsValue = s.prsValue := rfl
@[simp] theorem State.dequeue_coop (count : Nat) : (s.dequeue count).coop = s.coop := rfl
@[simp] theorem State.dequeue_fault (count : Nat) : (s.dequeue count).fault = s.fault := rfl
@[simp] theorem State.dequeue_txReady (count : Nat) : (s.dequeue count).txReady = s.txReady := rfl
@[simp] theorem State.dequeue_inputs (count : Nat) : (s.dequeue count).inputs = s.inputs := rfl
@[simp] theorem State.dequeue_trace (count : Nat) : (s.dequeue count).trace = s.trace := rfl
@[simp] theorem State.dequeue_results (count : Nat) : (s.dequeue count).results = s.results := rfl

end Sys2Proof.Machine
end

