-- ==== Sys2Proof/Laws/Ops.lean ====
section
/-! SUPPORT. For each shared operation, once, everything it can do: the wrapper of every meaning
(`command`), port acceptance, the parser, the staging buffer, the dispatch scan, the operand checks. -/

namespace Sys2Proof.Machine

open Sys2Proof

/-! ### Acceptance and the wrapper of the meanings (R106, R303) -/

@[simp] theorem State.halted_eq_false_iff (s : State) : s.halted = false ↔ s.fault = none := by
  simp [State.halted]

@[simp] theorem State.halted_eq_true_iff (s : State) : s.halted = true ↔ s.fault ≠ none := by
  simp [State.halted, Option.isSome_iff_ne_none]

theorem accept_own_port (i : Instr) (c : Coop) : accept i (portOf i) c = c.admitsInstr i := by
  simp [accept]

theorem command_halted {s : State} (h : s.fault ≠ none) (i : Instr)
    (rule : State → Host.Outcome State Fault Refusal) : command i s rule = .next s := by
  rw [command, if_pos (by simpa using h)]

theorem command_admitted {i : Instr} {s : State} (hf : s.fault = none)
    (ha : s.coop.admitsInstr i = true) (rule : State → Host.Outcome State Fault Refusal) :
    command i s rule = rule s := by
  rw [command, if_neg (by simpa using hf), accept_own_port, if_pos ha]

theorem command_rejected {i : Instr} {s : State} (hf : s.fault = none)
    (ha : s.coop.admitsInstr i = false) (rule : State → Host.Outcome State Fault Refusal) :
    command i s rule = .next (s.raise .context (commandWord i)) := by
  rw [command, if_neg (by simpa using hf), accept_own_port, if_neg (by simp [ha])]

/-- What a meaning can do: nothing on a halted BSC, its rule, or `F_CONTEXT`. -/
theorem command_cases {i : Instr} {s : State} {rule : State → Host.Outcome State Fault Refusal}
    {o : Host.Outcome State Fault Refusal} (h : command i s rule = o) :
    (s.fault ≠ none ∧ o = .next s) ∨
    (s.fault = none ∧ s.coop.admitsInstr i = true ∧ rule s = o) ∨
    (s.fault = none ∧ s.coop.admitsInstr i = false ∧
      o = .next (s.raise .context (commandWord i))) := by
  by_cases hf : s.fault = none
  · cases ha : s.coop.admitsInstr i
    · exact .inr (.inr ⟨hf, rfl, h ▸ command_rejected hf ha rule⟩)
    · exact .inr (.inl ⟨hf, rfl, command_admitted hf ha rule ▸ h⟩)
  · exact .inl ⟨hf, h ▸ command_halted hf i rule⟩

/-- An open port lets in every command that is not one of the four R303 names. -/
theorem State.Open.admits {s : State} (h : s.Open) : s.coop.admits false false = true := by
  obtain ⟨-, h | ⟨i, h⟩⟩ := h <;> simp [h, Coop.admits]

theorem State.Idle.admits {s : State} (h : s.Idle) (multiStep : Bool) :
    s.coop.admits false multiStep = true := by
  simp [h.2, Coop.admits]

theorem State.Idle.open {s : State} (h : s.Idle) : s.Open := ⟨h.1, .inl h.2⟩

@[simp] theorem withPayload_of_eq {length : Half} {payload : List Byte}
    (h : payload.length = length.toNat) (rule : Host.Outcome State Fault Refusal) :
    withPayload length payload rule = rule := by
  simp [withPayload, payloadFits, h]

theorem withPayload_of_ne {length : Half} {payload : List Byte}
    (h : payload.length ≠ length.toNat) (rule : Host.Outcome State Fault Refusal) :
    withPayload length payload rule = .refused .payloadMismatch := by
  simp [withPayload, payloadFits, h]

/-! ### Slot operands (R171) -/

theorem claimedSlot_of_lt {s : State} {slot : Byte} (h : slot.toNat < s.tmrCount.val)
    (h' : slot.toNat < Config.timerSlots) : s.claimedSlot slot = some ⟨slot.toNat, h'⟩ := by
  simp [State.claimedSlot, h]

theorem claimedSlot_of_le {s : State} {slot : Byte} (h : s.tmrCount.val ≤ slot.toNat) :
    s.claimedSlot slot = none := by
  simp [State.claimedSlot, Nat.not_lt.mpr h]

/-- A command on a claimed slot rewrites that slot and nothing else. -/
theorem onSlot_of_lt {s : State} {slot : Byte} (h : slot.toNat < s.tmrCount.val)
    (h' : slot.toNat < Config.timerSlots) (i : Instr) (update : Timer → Timer) :
    s.onSlot i slot update = { s with tmr := s.tmr.set slot.toNat (update (s.tmr[slot.toNat]'h')) h' } := by
  rw [State.onSlot, claimedSlot_of_lt h h']
  rfl

theorem onSlot_of_le {s : State} {slot : Byte} (h : s.tmrCount.val ≤ slot.toNat)
    (i : Instr) (update : Timer → Timer) :
    s.onSlot i slot update = s.raise .badSlot (commandWord i) := by
  rw [State.onSlot, claimedSlot_of_le h]

/-! ### The timer table (R33, R178) -/

@[simp] theorem mapTimers_get (f : Timer → Timer) (v : Vector Timer Config.timerSlots) {j : Nat}
    (h : j < Config.timerSlots) : (mapTimers f v)[j] = f v[j] := by
  show (v.toList.map f)[j]'(by simpa using h) = f v[j]
  rw [List.getElem_map]
  rfl

/-! ### The dispatch micro-step (R182) -/

/-- What the micro-step at `DISPATCH(i)` can do. -/
theorem scan_cases (s : State) (i : Fin (Config.timerSlots + 1)) :
    (i.val = Config.timerSlots ∧ s.scan i = { s with coop := .idle }) ∨
    ∃ h : i.val < Config.timerSlots,
      ((s.tmr[i.val]'h).enabled = false ∧
        s.scan i = { s with coop := .dispatch ⟨i.val + 1, Nat.succ_lt_succ h⟩ }) ∨
      ((s.tmr[i.val]'h).enabled = true ∧ (s.tmr[i.val]'h).periodSet = false ∧
        s.scan i = s.raise .unsetPeriod (commandWord .tmrDispatch)) ∨
      ((s.tmr[i.val]'h).enabled = true ∧ (s.tmr[i.val]'h).periodSet = true ∧
        (s.tmr[i.val]'h).reached = false ∧
        s.scan i = { s with coop := .dispatch ⟨i.val + 1, Nat.succ_lt_succ h⟩ }) ∨
      ((s.tmr[i.val]'h).enabled = true ∧ (s.tmr[i.val]'h).periodSet = true ∧
        (s.tmr[i.val]'h).reached = true ∧
        s.scan i = { s with
          tmr := s.tmr.set i.val (s.tmr[i.val]'h).fired h
          trace := s.trace ++ [.fire (BitVec.ofNat 8 i.val) (s.tmr[i.val]'h).cb]
          coop := .callback ⟨i.val, h⟩ }) := by
  by_cases h : i.val < Config.timerSlots
  · right
    refine ⟨h, ?_⟩
    cases he : (s.tmr[i.val]'h).enabled
    · left; simp [State.scan, h, he]
    · right
      cases hp : (s.tmr[i.val]'h).periodSet
      · left; simp [State.scan, h, he, hp]
      · right
        cases hr : (s.tmr[i.val]'h).reached
        · left; simp [State.scan, h, he, hp, hr]
        · right; simp [State.scan, h, he, hp, hr, State.emit, State.setTimer]
  · left
    have := i.isLt
    exact ⟨by omega, by simp [State.scan, h]⟩

/-! ### The staging buffer (R210, R213) -/

theorem receive_stored {s : State} (h : s.rxWr < s.rxCap) (b : Byte) :
    s.receive b = { s with rxMem := s.rxMem.write s.rxWr b, rxWr := s.rxWr + 1 } := if_pos h

theorem receive_dropped {s : State} (h : s.rxCap ≤ s.rxWr) (b : Byte) : s.receive b = s :=
  if_neg (Nat.not_lt.mpr h)

/-- A received byte touches `RX` and the write cursor only. -/
theorem receive_frame (s : State) (b : Byte) :
    s.receive b = { s with rxMem := (s.receive b).rxMem, rxWr := (s.receive b).rxWr } := by
  unfold State.receive
  split <;> rfl

/-- Any number of received bytes touch `RX` and the write cursor only. -/
theorem receiveAll_frame (s : State) (bytes : List Byte) :
    s.receiveAll bytes =
      { s with rxMem := (s.receiveAll bytes).rxMem, rxWr := (s.receiveAll bytes).rxWr } := by
  induction bytes generalizing s with
  | nil => rfl
  | cons b rest ih =>
    rw [State.receiveAll, ih, receive_frame s b]

theorem passByte_last {s : State} (h : s.rxRd + 1 = s.rxWr) :
    s.passByte = { s with rxRd := 0, rxWr := 0 } := if_pos h

theorem passByte_more {s : State} (h : s.rxRd + 1 ≠ s.rxWr) :
    s.passByte = { s with rxRd := s.rxRd + 1 } := if_neg h

theorem passByte_frame (s : State) :
    s.passByte = { s with rxRd := s.passByte.rxRd, rxWr := s.passByte.rxWr } := by
  unfold State.passByte
  split <;> rfl

theorem popRx_of_lt {s : State} (h : s.rxRd < s.rxCap) :
    s.popRx = some (s.rxMem.read s.rxRd, s.passByte) := if_pos h

/-! ### The frame parser (R216 to R220) -/

/-- The parser touches its own registers and appends to the trace. -/
theorem parseByte_frame (s : State) (b : Byte) :
    s.parseByte b = { s with
      prsState := (s.parseByte b).prsState
      prsId := (s.parseByte b).prsId
      prsValue := (s.parseByte b).prsValue
      trace := (s.parseByte b).trace } := by
  unfold State.parseByte State.endFrame
  split
  · split <;> rfl
  · rfl
  · rfl
  · rfl
  · split
    · split <;> rfl
    · rfl

/-- The parser appends at most one event. -/
theorem parseByte_trace (s : State) (b : Byte) :
    (s.parseByte b).trace = s.trace ∨
      ∃ addr value, (s.parseByte b).trace = s.trace ++ [.storeWrite addr value] := by
  unfold State.parseByte State.endFrame
  split
  · split <;> exact .inl rfl
  · exact .inl rfl
  · exact .inl rfl
  · exact .inl rfl
  · split
    · split
      · exact .inr ⟨_, _, rfl⟩
      · exact .inl rfl
    · exact .inl rfl

/-- The parser looks at nothing but its own registers, the map and the byte: rewriting the cursors
and the busy state before it or after it is the same. -/
theorem parseByte_with_cursors (s : State) (b : Byte) (rd wr : Nat) (c : Coop) :
    ({ s with rxRd := rd, rxWr := wr, coop := c } : State).parseByte b =
      { s.parseByte b with rxRd := rd, rxWr := wr, coop := c } := by
  obtain ⟨_, _, _, _, _, _, _, _, _, st, _, _, _, _, _, _, _, _⟩ := s
  unfold State.parseByte State.endFrame
  cases st <;> dsimp only
  · split <;> rfl
  · split
    · split <;> rfl
    · rfl

/-! ### What is buffered -/

@[simp] theorem txContents_length (s : State) : s.txContents.length = s.txCnt := by
  simp [State.txContents]

@[simp] theorem rxContents_length (s : State) : s.rxContents.length = s.rxWr - s.rxRd := by
  simp [State.rxContents]

/-- The ring's length is at least 1 (R9). -/
theorem txCap_pos (s : State) : 0 < s.txCap := s.params.txBuffer.pos

theorem rxCap_pos (s : State) : 0 < s.rxCap := s.params.rxBuffer.pos

end Sys2Proof.Machine
end

