-- ==== Sys2Proof/Laws/Exec.lean ====
section
/-! SUPPORT. Every meaning in one shape: an ill-formed pair is refused, and otherwise the meaning is
its rule behind the checks of R106. A proof about all instructions starts here. -/

namespace Sys2Proof.Machine

open Sys2Proof

/-- The rule of each instruction, without the checks of R106 (the rules named in R104). -/
def ruleOf (i : Instr) (s : State) : Host.Outcome State Fault Refusal :=
  match i with
  | .tmrCreate token => .next (s.createTimer token)
  | .tmrSetp slot period => .next (s.onSlot (.tmrSetp slot period) slot fun t => t.setPeriod period)
  | .tmrStart slot ar => .next (s.onSlot (.tmrStart slot ar) slot fun t => t.start ar)
  | .tmrStop slot => .next (s.onSlot (.tmrStop slot) slot fun t => t.stop)
  | .tmrTick => .next { s with tmr := mapTimers Timer.tick s.tmr }
  | .tmrDispatch => .next { s with coop := .dispatch 0 }
  | .tmrCbret => .next s.closeWindow
  | .rbInit => .next { s with txRd := 0, txCnt := 0 }
  | .rbIsempty => .next (s.deliver (boolWord (s.txCnt == 0)))
  | .rbFree => .next (s.deliver (BitVec.ofNat 32 s.txFree))
  | .rbAdd length payload => .next (s.addBytes length payload)
  | .rbPeek =>
    .next ((s.emit (.data (s.txMem.readRun s.txRd s.txRun))).deliver (BitVec.ofNat 32 s.txRun))
  | .rbRemove count => .next (s.removeBytes count)
  | .rxByte b => .next (s.receive b)
  | .rxRead =>
    if s.rxRd = s.rxWr then .next (s.raise .rxEmpty (commandWord .rxRead))
    else
      match s.popRx with
      | some (b, t) => .next (t.deliver (b.setWidth 32))
      | none => .fault .rxIndex
  | .prsByte b => .next (s.parseByte b)
  | .rxParse => .next { s with coop := .parse }
  | .txSend _ payload => .next (s.send payload)
  | .txPacket parameterId value => .next (s.send (frameBytes parameterId value))
  | .txByte b => .next (s.send [b])
  | .txDrain => .next { s with coop := .drain }
  | .frame parameterId value => .next (s.receiveAll (frameBytes parameterId value))

/-- Every meaning is its rule behind the checks (R103, R106). -/
theorem exec_eq (i : Instr) (s : State) :
    exec i s = if i.wellFormed then command i s (ruleOf i) else .refused .payloadMismatch := by
  cases i <;> rfl

/-- A halted BSC takes no step (R301). -/
theorem exec_halted {i : Instr} {s : State} (hw : i.wellFormed = true) (hf : s.fault ≠ none) :
    exec i s = .next s := by
  rw [exec_eq, if_pos hw, command_halted hf]

/-- A command the busy state rejects raises `F_CONTEXT` (R303). -/
theorem exec_rejected {i : Instr} {s : State} (hw : i.wellFormed = true) (hf : s.fault = none)
    (ha : s.coop.admitsInstr i = false) :
    exec i s = .next (s.raise .context (commandWord i)) := by
  rw [exec_eq, if_pos hw, command_rejected hf ha]

/-- A command let in runs its rule. -/
theorem exec_admitted {i : Instr} {s : State} (hw : i.wellFormed = true) (hf : s.fault = none)
    (ha : s.coop.admitsInstr i = true) : exec i s = ruleOf i s := by
  rw [exec_eq, if_pos hw, command_admitted hf ha]

/-- On an open port a command that is not one of the four R303 names runs its rule. -/
theorem exec_of_open {i : Instr} {s : State} (h : s.Open) (hw : i.wellFormed = true)
    (ha : s.coop.admitsInstr i = s.coop.admits false false) : exec i s = ruleOf i s :=
  exec_admitted hw h.1 (ha.trans h.admits)

/-- What a meaning that answers a next state has done. -/
theorem exec_next_cases {i : Instr} {s t : State} (h : exec i s = .next t) :
    i.wellFormed = true ∧
    ((s.fault ≠ none ∧ t = s) ∨
     (s.fault = none ∧ s.coop.admitsInstr i = true ∧ ruleOf i s = .next t) ∨
     (s.fault = none ∧ s.coop.admitsInstr i = false ∧ t = s.raise .context (commandWord i))) := by
  rw [exec_eq] at h
  split at h
  · next hw =>
    refine ⟨hw, ?_⟩
    rcases command_cases h with ⟨hf, h⟩ | ⟨hf, ha, h⟩ | ⟨hf, ha, h⟩
    · exact .inl ⟨hf, Host.Outcome.next.inj h⟩
    · exact .inr (.inl ⟨hf, ha, h⟩)
    · exact .inr (.inr ⟨hf, ha, Host.Outcome.next.inj h⟩)
  · cases h

/-- No rule of an instruction touches the inputs, the parameters or the level of `TX_READY`. -/
theorem ruleOf_environment {i : Instr} {s t : State} (h : ruleOf i s = .next t) :
    t.params = s.params ∧ t.inputs = s.inputs ∧ t.txReady = s.txReady := by
  cases i <;> simp only [ruleOf, Host.Outcome.next.injEq] at h
  case tmrCreate token =>
    subst h; unfold State.createTimer; split <;> simp
  case tmrSetp | tmrStart | tmrStop =>
    subst h; unfold State.onSlot; split <;> simp
  case tmrCbret =>
    subst h; unfold State.closeWindow; split <;> simp
  case rbAdd =>
    subst h; unfold State.addBytes; split <;> simp
  case rbRemove =>
    subst h; unfold State.removeBytes; split <;> simp
  case rxByte =>
    subst h; rw [receive_frame]; simp
  case frame =>
    subst h; rw [receiveAll_frame]; simp
  case prsByte =>
    subst h; rw [parseByte_frame]; simp
  case txSend | txPacket | txByte =>
    subst h; unfold State.send; split <;> simp
  case rxRead =>
    split at h
    · cases h; simp
    · unfold State.popRx State.passByte at h
      split at h
      · next hp =>
        split at hp <;> cases hp
        cases h
        simp only [State.deliver_params, State.deliver_inputs, State.deliver_txReady]
        split <;> simp
      · cases h
  all_goals subst h; simp

end Sys2Proof.Machine
end

