-- ==== Sys2Proof/Laws/Step.lean ====
section
/-! SUPPORT. Once, everything a step can do: the micro-steps, and the inversion of `step`. -/

namespace Sys2Proof.Machine

open Sys2Proof

/-- Everything an RX.PARSE micro-step can do when it has a next state (R221). -/
theorem parseStep_next_cases {s t : State} (h : s.parseStep = .next t) :
    (s.rxRd = s.rxWr ∧ t = { s with coop := .idle }) ∨
    (s.rxRd ≠ s.rxWr ∧ s.rxRd < s.rxCap ∧ t = s.passByte.parseByte (s.rxMem.read s.rxRd)) := by
  unfold State.parseStep at h
  split at h
  · next he => exact .inl ⟨he, (Host.Outcome.next.inj h).symm⟩
  · next he =>
    by_cases hc : s.rxRd < s.rxCap
    · rw [popRx_of_lt hc] at h
      exact .inr ⟨he, hc, (Host.Outcome.next.inj h).symm⟩
    · rw [State.popRx, if_neg hc] at h
      cases h

/-- Everything a drain micro-step can do when it has a next state (R257). -/
theorem drainStep_next_cases {s t : State} (h : s.drainStep = .next t) :
    (s.txCnt = 0 ∧ t = { s with coop := .idle }) ∨
    (s.txCnt ≠ 0 ∧ s.txReady = true ∧ s.txRd < s.txCap ∧
      t = (s.emit (.uartTx (s.txMem.read s.txRd))).dequeue 1) ∨
    (s.txCnt ≠ 0 ∧ s.txReady = false ∧ t = s) := by
  unfold State.drainStep at h
  split at h
  · next he => exact .inl ⟨he, (Host.Outcome.next.inj h).symm⟩
  · next he =>
    split at h
    · next hr =>
      split at h
      · next hc => exact .inr (.inl ⟨he, hr, hc, (Host.Outcome.next.inj h).symm⟩)
      · cases h
    · next hr => exact .inr (.inr ⟨he, by simpa using hr, (Host.Outcome.next.inj h).symm⟩)

/-- Everything the BSC's own step can do when it has a next state (R182, R221, R257, R301). -/
theorem microStep_next_cases {s t : State} (h : microStep s = .next t) :
    t = s ∨
    (s.fault = none ∧ ∃ i, s.coop = .dispatch i ∧ t = s.scan i) ∨
    (s.fault = none ∧ s.coop = .parse ∧ s.parseStep = .next t) ∨
    (s.fault = none ∧ s.coop = .drain ∧ s.drainStep = .next t) := by
  unfold microStep at h
  split at h
  · exact .inl (Host.Outcome.next.inj h).symm
  · next hf =>
    have hf : s.fault = none := by simpa using hf
    split at h
    · exact .inl (Host.Outcome.next.inj h).symm
    · next i hc => exact .inr (.inl ⟨hf, i, hc, (Host.Outcome.next.inj h).symm⟩)
    · exact .inl (Host.Outcome.next.inj h).symm
    · next hc => exact .inr (.inr (.inl ⟨hf, hc, h⟩))
    · next hc => exact .inr (.inr (.inr ⟨hf, hc, h⟩))

/-- A step with nothing arriving is the BSC's own. -/
theorem step_of_no_input {s : State} (h : s.inputs = []) : step s = microStep s := by
  simp [step, oneStep, h]

theorem microStep_dispatch {s : State} {i : Fin (Config.timerSlots + 1)} (hf : s.fault = none)
    (hc : s.coop = .dispatch i) : microStep s = .next (s.scan i) := by
  simp [microStep, State.halted, hf, hc]

theorem microStep_parse {s : State} (hf : s.fault = none) (hc : s.coop = .parse) :
    microStep s = s.parseStep := by
  simp [microStep, State.halted, hf, hc]

theorem microStep_drain {s : State} (hf : s.fault = none) (hc : s.coop = .drain) :
    microStep s = s.drainStep := by
  simp [microStep, State.halted, hf, hc]

theorem runSteps_of_next {n : Nat} {s t : State} (h : step s = .next t) :
    runSteps (n + 1) s = runSteps n t := by
  rw [runSteps, h]; rfl

/-- The state without the input that is being taken. -/
def State.afterInput (s : State) : State := { s with inputs := s.inputs.tail }

theorem afterInput_of_nil {s : State} (h : s.inputs = []) : s.afterInput = s := by
  obtain ⟨_, _, _, _, _, _, _, _, _, _, _, _, _, _, _, inputs, _, _⟩ := s
  subst h
  rfl

theorem afterInput_of_cons {s : State} {x : Input} {rest : List Input} (h : s.inputs = x :: rest) :
    s.afterInput = { s with inputs := rest } := by
  rw [State.afterInput, h]
  rfl

/-- The instruction that `step` takes as the next input. -/
def Arrives (s : State) (i : Instr) : Prop :=
  (∃ cw payload rest, s.inputs = .word (portOf i) cw payload :: rest ∧
    decode (.command cw payload) = .ok i) ∨
  ∃ bits rest, s.inputs = .wire bits :: rest ∧ decode (.wire bits) = .ok i

/-- A step in which nothing arrives is the BSC's own, with the input `own` taken off. -/
theorem step_of_alone {s : State} (h : s.Alone) : step s = microStep s.afterInput := by
  rcases h with h | ⟨rest, h⟩
  · rw [afterInput_of_nil h, step_of_no_input h]
  · rw [afterInput_of_cons h, step, oneStep, h]
    rfl

/-- Everything a step can do when it has a next state. -/
theorem step_next_cases {s t : State} (h : step s = .next t) :
    (s.Alone ∧ microStep s.afterInput = .next t) ∨
    (∃ i, Arrives s i ∧ exec i s.afterInput = .next t) ∨
    (s.fault ≠ none ∧ (∃ x rest, s.inputs = x :: rest ∧ x ≠ .reset) ∧ t = s.afterInput) ∨
    (s.fault = none ∧ ∃ p cw payload rest code, s.inputs = .word p cw payload :: rest ∧
      (code = .illegal ∨ code = .context) ∧ t = s.afterInput.raise code cw) ∨
    (s.fault = none ∧ ∃ bits rest, s.inputs = .wire bits :: rest ∧
      t = s.afterInput.receiveAll (wireBytes bits)) ∨
    (∃ level rest, s.inputs = .txReady level :: rest ∧ t = { s.afterInput with txReady := level }) ∨
    (∃ rest, s.inputs = .reset :: rest ∧ t = s.afterInput.restart) := by
  unfold step oneStep at h
  split at h
  · next hi => exact .inl ⟨.inl hi, by rwa [afterInput_of_nil hi]⟩
  · next x rest hi =>
    rw [← afterInput_of_cons hi] at h
    have hh : s.afterInput.halted = s.halted := rfl
    cases x with
    | own => exact .inl ⟨.inr ⟨rest, hi⟩, h⟩
    | reset => exact .inr (.inr (.inr (.inr (.inr (.inr ⟨rest, hi, (Host.Outcome.next.inj h).symm⟩)))))
    | txReady level =>
      exact .inr (.inr (.inr (.inr (.inr (.inl ⟨level, rest, hi, (Host.Outcome.next.inj h).symm⟩)))))
    | wire bits =>
      simp only [takeInput, arriveWire] at h
      split at h
      · next i hd => exact .inr (.inl ⟨i, .inr ⟨bits, rest, hi, hd⟩, h⟩)
      · have h := Host.Outcome.next.inj h
        split at h
        · next hf =>
          exact .inr (.inr (.inl ⟨by simpa [hh] using hf, ⟨_, rest, hi, by simp⟩, h.symm⟩))
        · next hf =>
          exact .inr (.inr (.inr (.inr (.inl ⟨by simpa [hh] using hf, bits, rest, hi, h.symm⟩))))
    | word p cw payload =>
      simp only [takeInput, arrive] at h
      split at h
      · cases h
      · have h := Host.Outcome.next.inj h
        split at h
        · next hf =>
          exact .inr (.inr (.inl ⟨by simpa [hh] using hf, ⟨_, rest, hi, by simp⟩, h.symm⟩))
        · next hf =>
          exact .inr (.inr (.inr (.inl
            ⟨by simpa [hh] using hf, p, cw, payload, rest, .illegal, hi, .inl rfl, h.symm⟩)))
      · next i hd =>
        split at h
        · next hp =>
          subst hp
          exact .inr (.inl ⟨i, .inl ⟨cw, payload, rest, hi, hd⟩, h⟩)
        · have h := Host.Outcome.next.inj h
          split at h
          · next hf =>
            exact .inr (.inr (.inl ⟨by simpa [hh] using hf, ⟨_, rest, hi, by simp⟩, h.symm⟩))
          · next hf =>
            exact .inr (.inr (.inr (.inl
              ⟨by simpa [hh] using hf, p, cw, payload, rest, .context, hi, .inr rfl, h.symm⟩)))

end Sys2Proof.Machine
end

