-- ==== Sys2Proof/Laws/Invariants.lean ====
section
/-! SUPPORT. The shared operations keep the invariants of the state (R35, R39, R42), and the memories
keep their canonical form and their size. -/

namespace Sys2Proof.Machine

open Sys2Proof

theorem within_write {m : Memory} {size a : Nat} (h : m.Within size) (ha : a < size) (v : Byte) :
    (m.write a v).Within size :=
  ⟨Memory.write_wf h.1 a v, fun c hc => (Memory.addr_of_mem_write hc).elim (fun h => h ▸ ha) (h.2 c)⟩

theorem within_writeRing {m : Memory} {size : Nat} (h : m.Within size) (hp : 0 < size) (at_ : Nat)
    (bytes : List Byte) : (m.writeRing size at_ bytes).Within size :=
  ⟨Memory.writeRing_wf h.1 _ _ _, fun c hc => (Memory.addr_of_mem_writeRing hp hc).elim id (h.2 c)⟩

/-- Nothing is held at or above a memory's size. -/
theorem read_of_size_le {m : Memory} {size a : Nat} (h : m.Within size) (ha : size ≤ a) :
    m.read a = Memory.blank :=
  Memory.read_of_not_listed fun c hc => Nat.ne_of_lt (Nat.lt_of_lt_of_le (h.2 c hc) ha)

/-- A state that differs in no field the invariants name, but for `coop` and `fault`. -/
theorem inv_of_same_fields {s t : State} (h : s.Inv) (hparams : t.params = s.params)
    (htmr : t.tmr = s.tmr) (hcount : t.tmrCount = s.tmrCount) (htxMem : t.txMem = s.txMem)
    (htxRd : t.txRd = s.txRd) (htxCnt : t.txCnt = s.txCnt) (hrxMem : t.rxMem = s.rxMem)
    (hrxWr : t.rxWr = s.rxWr) (hrxRd : t.rxRd = s.rxRd) (hcoop : t.CoopOk) (hfault : t.FaultOk) :
    t.Inv := by
  have hc : t.txCap = s.txCap := by simp [State.txCap, hparams]
  have hr : t.rxCap = s.rxCap := by simp [State.rxCap, hparams]
  refine ⟨?_, ?_, ?_, ?_, ?_, hcoop, hfault⟩
  · have := h.ring; unfold State.RingOk at *; rw [hc, htxRd, htxCnt]; exact this
  · have := h.staging; unfold State.StagingOk at *; rw [hr, hrxWr, hrxRd]; exact this
  · have := h.timers; unfold State.TimersOk at *; rw [htmr, hcount]; exact this
  · rw [htxMem, hc]; exact h.txMemory
  · rw [hrxMem, hr]; exact h.rxMemory

theorem coopOk_of_no_window {s : State} (h : ∀ i, s.coop ≠ .callback i) : s.CoopOk :=
  fun i hi => absurd hi (h i)

theorem inv_raise {s : State} (h : s.Inv) {code : FaultCode} {word : Word}
    (hc : code ≠ .unsetPeriod ∨ word = 0x06000000) : (s.raise code word).Inv := by
  refine inv_of_same_fields h rfl rfl rfl rfl rfl rfl rfl rfl rfl h.coop fun w hw => ?_
  simp only [State.raise_fault, Option.some.injEq, FaultRecord.mk.injEq] at hw
  rcases hc with hc | rfl
  · exact absurd hw.1 hc
  · exact hw.2.symm

theorem inv_emit {s : State} (h : s.Inv) (e : Event) : (s.emit e).Inv :=
  inv_of_same_fields h rfl rfl rfl rfl rfl rfl rfl rfl rfl h.coop h.fault

theorem inv_deliver {s : State} (h : s.Inv) (v : Word) : (s.deliver v).Inv :=
  inv_of_same_fields h rfl rfl rfl rfl rfl rfl rfl rfl rfl h.coop h.fault

theorem inv_afterInput {s : State} (h : s.Inv) : s.afterInput.Inv :=
  inv_of_same_fields h rfl rfl rfl rfl rfl rfl rfl rfl rfl h.coop h.fault

theorem inv_receive {s : State} (h : s.Inv) (b : Byte) : (s.receive b).Inv := by
  unfold State.receive
  split
  · next hlt =>
    have hs := h.staging
    exact ⟨h.ring, by unfold State.StagingOk at *; simp only [State.rxCap] at *; omega, h.timers,
      h.txMemory, within_write h.rxMemory hlt b, h.coop, h.fault⟩
  · exact h

theorem inv_receiveAll {s : State} (h : s.Inv) (bytes : List Byte) : (s.receiveAll bytes).Inv := by
  induction bytes generalizing s with
  | nil => exact h
  | cons b rest ih => exact ih (inv_receive h b)

theorem inv_parseByte {s : State} (h : s.Inv) (b : Byte) : (s.parseByte b).Inv := by
  rw [parseByte_frame]
  exact inv_of_same_fields h rfl rfl rfl rfl rfl rfl rfl rfl rfl h.coop h.fault

theorem inv_passByte {s : State} (h : s.Inv) (hne : s.rxRd ≠ s.rxWr) : s.passByte.Inv := by
  have hs := h.staging
  unfold State.passByte
  split
  · exact ⟨h.ring, by unfold State.StagingOk at *; simp, h.timers, h.txMemory, h.rxMemory, h.coop, h.fault⟩
  · exact ⟨h.ring, by unfold State.StagingOk at *; simp only [State.rxCap] at *; omega, h.timers,
      h.txMemory, h.rxMemory, h.coop, h.fault⟩

theorem inv_enqueue {s : State} (h : s.Inv) (bytes : List Byte) (hl : bytes.length ≤ s.txFree) :
    (s.enqueue bytes).Inv := by
  have hr := h.ring
  refine ⟨?_, h.staging, h.timers, within_writeRing h.txMemory (txCap_pos s) _ _, h.rxMemory, h.coop, h.fault⟩
  unfold State.RingOk State.txFree at *
  simp only [State.enqueue, State.txCap] at *
  omega

theorem inv_dequeue {s : State} (h : s.Inv) (count : Nat) : (s.dequeue count).Inv := by
  have hr := h.ring
  refine ⟨?_, h.staging, h.timers, h.txMemory, h.rxMemory, h.coop, h.fault⟩
  have := Nat.mod_lt (s.txRd + count) (txCap_pos s)
  unfold State.RingOk at *
  simp only [State.dequeue, State.txCap] at *
  omega

theorem inv_send {s : State} (h : s.Inv) (bytes : List Byte) : (s.send bytes).Inv := by
  unfold State.send
  split
  · exact inv_deliver h _
  · exact inv_deliver (inv_enqueue h bytes (by omega)) _

theorem timersOk_setTimer {s : State} (h : s.TimersOk) (i : Fin Config.timerSlots) (t : Timer)
    (hi : i.val < s.tmrCount.val) : (s.setTimer i t).TimersOk := by
  intro j hj
  have hne : i.val ≠ j.val := by simp at hj; omega
  simpa [State.setTimer, Vector.getElem_set_ne _ _ hne] using h j hj

end Sys2Proof.Machine
end

