-- ==== Sys2Proof/Laws/Queues.lean ====
section
/-! SUPPORT. The ring and the staging buffer as plain lists of bytes: what each shared operation
does to the list (R144, R146, R210, R213). -/

namespace Sys2Proof.Machine

open Sys2Proof

/-! ### Ring Buffer -/

/-- The stored bytes read as the payload's, in order. -/
theorem enqueue_read_stored {s : State} (hm : s.txMem.wf) {bytes : List Byte}
    (hl : bytes.length ≤ s.txCap) {k : Nat} (hk : k < bytes.length) :
    (s.enqueue bytes).txMem.read (s.txSlot k) = bytes[k] :=
  Memory.read_writeRing_at hm hl hk

/-- Every byte but the stored ones reads as before. -/
theorem enqueue_read_other (s : State) {bytes : List Byte} {a : Nat}
    (ha : ∀ k < bytes.length, a ≠ s.txSlot k) : (s.enqueue bytes).txMem.read a = s.txMem.read a :=
  Memory.read_writeRing_other ha

theorem txContents_of_same {s t : State} (hparams : t.params = s.params) (hm : t.txMem = s.txMem)
    (hrd : t.txRd = s.txRd) (hcnt : t.txCnt = s.txCnt) : t.txContents = s.txContents := by
  unfold State.txContents State.txCap
  rw [hparams, hm, hrd, hcnt]

/-- Enqueued bytes go behind the buffered ones. -/
theorem txContents_enqueue {s : State} (hr : s.RingOk) (hm : s.txMem.wf) {bytes : List Byte}
    (hl : bytes.length ≤ s.txFree) : (s.enqueue bytes).txContents = s.txContents ++ bytes := by
  obtain ⟨r1, r2⟩ := hr
  unfold State.txFree at hl
  apply List.ext_getElem
  · simp [State.enqueue]
  · intro k h1 h2
    have hk : k < s.txCnt + bytes.length := by simpa [State.enqueue] using h1
    have hL : (s.enqueue bytes).txContents[k] =
        (s.enqueue bytes).txMem.read ((s.txRd + k) % s.txCap) := by
      simp [State.txContents]; rfl
    rw [hL]
    by_cases hlt : k < s.txCnt
    · rw [List.getElem_append_left (by simpa using hlt), enqueue_read_other]
      · simp [State.txContents]
      · intro j hj
        rw [State.txSlot, Nat.add_assoc]
        exact Memory.mod_add_injective (at_ := s.txRd) (by omega) (by omega) (by omega)
    · rw [List.getElem_append_right (by simpa using hlt)]
      have := enqueue_read_stored hm (by omega) (k := k - s.txCnt) (bytes := bytes) (by omega)
      rw [State.txSlot, show s.txRd + s.txCnt + (k - s.txCnt) = s.txRd + k by omega] at this
      simpa using this

/-- Removed bytes leave at the front. -/
theorem txContents_dequeue (s : State) (count : Nat) :
    (s.dequeue count).txContents = s.txContents.drop count := by
  apply List.ext_getElem
  · simp [State.dequeue]
  · intro k h1 h2
    simp only [List.getElem_drop, State.txContents, List.getElem_map, List.getElem_range, State.dequeue]
    show s.txMem.read (((s.txRd + count) % s.txCap + k) % s.txCap) = _
    rw [Nat.mod_add_mod, Nat.add_assoc]

/-- The contiguous run is a first part of what is buffered. -/
theorem readRun_txRun {s : State} (hr : s.RingOk) :
    s.txMem.readRun s.txRd s.txRun = s.txContents.take s.txRun := by
  obtain ⟨r1, r2⟩ := hr
  rw [Memory.readRun_eq_map]
  apply List.ext_getElem
  · simp [State.txRun]
  · intro k h1 h2
    simp only [List.length_map, List.length_range] at h1
    have : k < s.txCap - s.txRd := by simp [State.txRun] at h1; omega
    simp only [State.txContents, List.getElem_map, List.getElem_range, List.getElem_take]
    rw [Nat.mod_eq_of_lt (by omega)]

/-! ### Receive Staging Buffer -/

/-- A stored byte goes behind the staged ones; a dropped one leaves them. -/
theorem rxContents_receive {s : State} (hs : s.StagingOk) (hm : s.rxMem.wf) (b : Byte) :
    (s.receive b).rxContents = if s.rxWr < s.rxCap then s.rxContents ++ [b] else s.rxContents := by
  obtain ⟨h1, h2, h3⟩ := hs
  split
  · next h =>
    rw [receive_stored h]
    unfold State.rxContents
    show List.map _ (List.range (s.rxWr + 1 - s.rxRd)) = _
    rw [show s.rxWr + 1 - s.rxRd = (s.rxWr - s.rxRd) + 1 by omega, List.range_succ, List.map_append]
    congr 1
    · refine List.map_congr_left fun k hk => ?_
      rw [List.mem_range] at hk
      exact Memory.read_write_other _ _ (by show s.rxRd + k ≠ s.rxWr; omega)
    · simp only [List.map_cons, List.map_nil]
      rw [show s.rxRd + (s.rxWr - s.rxRd) = s.rxWr by omega, Memory.read_write_same hm]
  · next h => rw [receive_dropped (by omega)]

/-- The passed byte is the oldest staged one. -/
theorem rxContents_passByte {s : State} (hs : s.StagingOk) (hne : s.rxRd ≠ s.rxWr) :
    s.rxContents = s.rxMem.read s.rxRd :: s.passByte.rxContents := by
  obtain ⟨h1, h2, h3⟩ := hs
  unfold State.rxContents
  rw [show s.rxWr - s.rxRd = (s.rxWr - s.rxRd - 1) + 1 by omega, List.range_succ_eq_map,
    List.map_cons, List.map_map]
  congr 1
  by_cases hl : s.rxRd + 1 = s.rxWr
  · rw [passByte_last hl, show s.rxWr - s.rxRd - 1 = 0 by omega]
    rfl
  · rw [passByte_more hl, show s.rxWr - s.rxRd - 1 = s.rxWr - (s.rxRd + 1) by omega]
    refine List.map_congr_left fun k _ => ?_
    show s.rxMem.read (s.rxRd + (k + 1)) = s.rxMem.read (s.rxRd + 1 + k)
    congr 1; omega

end Sys2Proof.Machine
end

