-- ==== Sys2Proof/Tests/Slice0.lean ====
section
/-! SUPPORT. The model's own tests. Expected results come from spec/95_test_vectors.md and the
examples of the rules, named at each test; words are written out from the tables of R104, R111 and
R120. Then, for each obligation with hypotheses, concrete states and operands that meet them. -/

namespace Sys2Proof.Tests

open Sys2Proof Sys2Proof.Machine

/-! ### States the tests start from -/

/-- Parameters as the vectors take them: a transmit and a receive capacity, and a map that knows 0x01
(at the address the vectors call A1) and 0x05, but not 0x30 or 0x7F. -/
def vectorParams (tx rx : Capacity) : Params :=
  { txBuffer := tx
    rxBuffer := rx
    paramMap :=
      { entries := [(0x01, 0xA1), (0x05, 0xA5)]
        ids_distinct := by decide
        addrs_distinct := by decide
        knows_one := by decide } }

/-- Reset with `CAP = 4` and `RXCAP = 4`. -/
def start4 : State :=
  State.resetWith (vectorParams ⟨4, by decide, by decide⟩ ⟨4, by decide, by decide⟩) true

/-- Reset with `CAP = 8` and `RXCAP = 8`. -/
def start8 : State :=
  State.resetWith (vectorParams ⟨8, by decide, by decide⟩ ⟨8, by decide, by decide⟩) true

/-- One slot of the timer table given, the first so many claimed. -/
def withSlot (s : State) (count : Fin (Config.timerSlots + 1)) (j : Fin Config.timerSlots) (t : Timer) : State :=
  { s with tmrCount := count, tmr := s.tmr.set j.val t j.isLt }

/-- Slot 0 claimed by `tmr.create 0x0010` and otherwise as given. -/
def slot0 (t : Timer) : State := withSlot start4 1 0 { t with cb := 0x0010 }

/-- A Running slot with its period set. -/
def running (period elapsed : Half) (ar : Bool) : Timer :=
  { period := period, periodSet := true, elapsed := elapsed, cb := 0, autoReload := ar, enabled := true }

/-- The step that takes a word on a port. -/
def takes (s : State) (p : Port) (cw : Word) (payload : List Byte) : Option State :=
  nextState (step { s with inputs := [.word p cw payload] })

/-- The ring of B8 to B11: `txRd = 3`, `txCnt = 2`, `TX[3] = 0xA1`, `TX[0] = 0xA2`. -/
def ringB8 : State := { start4 with txMem := ⟨[(0, 0xA2), (3, 0xA1)]⟩, txRd := 3, txCnt := 2 }

/-- Bytes 0xAA, 0xBB staged, as in S2. -/
def stagedS2 : State := { start4 with rxMem := ⟨[(0, 0xAA), (1, 0xBB)]⟩, rxWr := 2 }

/-- Four bytes staged with `RXCAP = 4`, as in S4. -/
def stagedFull : State :=
  { start4 with rxMem := ⟨[(0, 0x30), (1, 0x01), (2, 0x02), (3, 0x64)]⟩, rxWr := 4 }

/-! ### WellFormed and decode: one ill-formed term for each check (R103; E17) -/

theorem test_rbAdd_short_payload_is_ill_formed : (Instr.rbAdd 2 [0xAB]).wellFormed = false := by decide
theorem test_txSend_long_payload_is_ill_formed : (Instr.txSend 1 [1, 2]).wellFormed = false := by decide
theorem test_ill_formed_pair_does_not_decode :
    decode (.command 0x13000002 [0xAB]) = .error .payloadMismatch := by decide
theorem test_ill_formed_pair_has_no_step : takes start4 .coop 0x13000002 [0xAB] = none := by decide

/-! ### Decoding: every row's word from the tables -/

theorem test_decode_tmr :
    decode (.command 0x010000A1 []) = .ok (.tmrCreate 0x00A1) ∧
    decode (.command 0x02010005 []) = .ok (.tmrSetp 1 5) ∧
    decode (.command 0x03000001 []) = .ok (.tmrStart 0 true) ∧
    decode (.command 0x03070000 []) = .ok (.tmrStart 7 false) ∧
    decode (.command 0x04090000 []) = .ok (.tmrStop 9) ∧
    decode (.command 0x05000000 []) = .ok .tmrTick ∧
    decode (.command 0x06000000 []) = .ok .tmrDispatch ∧
    decode (.command 0x07000000 []) = .ok .tmrCbret := by decide

theorem test_decode_rb :
    decode (.command 0x10000000 []) = .ok .rbInit ∧
    decode (.command 0x11000000 []) = .ok .rbIsempty ∧
    decode (.command 0x12000000 []) = .ok .rbFree ∧
    decode (.command 0x13000003 [0x44, 0x55, 0x66]) = .ok (.rbAdd 3 [0x44, 0x55, 0x66]) ∧
    decode (.command 0x14000000 []) = .ok .rbPeek ∧
    decode (.command 0x15000002 []) = .ok (.rbRemove 2) := by decide

theorem test_decode_rx_prs :
    decode (.command 0x20410000 []) = .ok (.rxByte 0x41) ∧
    decode (.command 0x21000000 []) = .ok .rxRead ∧
    decode (.command 0x22350000 []) = .ok (.prsByte 0x35) ∧
    decode (.command 0x23000000 []) = .ok .rxParse := by decide

theorem test_decode_tx :
    decode (.command 0x28000002 [0x88, 0x99]) = .ok (.txSend 2 [0x88, 0x99]) ∧
    decode (.command 0x29021234 []) = .ok (.txPacket 0x02 0x1234) ∧
    decode (.command 0x2A770000 []) = .ok (.txByte 0x77) ∧
    decode (.command 0x2B000000 []) = .ok .txDrain := by decide

theorem test_decode_frame : decode (.wire 0x3001006435) = .ok (.frame 0x01 0x0064) := by decide

/-- E2 to E9: unlisted opcodes and reserved bits. -/
theorem test_decode_illegal :
    decode (.command 0x08000000 []) = .error .undefinedOpcode ∧
    decode (.command 0x00000000 []) = .error .undefinedOpcode ∧
    decode (.command 0xFF000000 []) = .error .undefinedOpcode ∧
    decode (.command 0x2C000000 []) = .error .undefinedOpcode ∧
    decode (.command 0x03000002 []) = .error .reservedNotZero ∧
    decode (.command 0x04000001 []) = .error .reservedNotZero ∧
    decode (.command 0x01010010 []) = .error .reservedNotZero ∧
    decode (.command 0x05000001 []) = .error .reservedNotZero := by decide

/-- R122: a wrong terminator makes no frame. -/
theorem test_decode_wire_without_end_byte : decode (.wire 0x3001006436) = .error .notAFrame := by decide

/-- R111: a payload is written as a bracketed list; a frame has no syntax. -/
theorem test_assembly :
    (Instr.tmrStart 0 true).assembly = some "tmr.start 0, 1" ∧
    (Instr.rbAdd 2 [1, 2]).assembly = some "rb.add [1, 2]" ∧
    (Instr.frame 1 2).assembly = none := by decide

/-- R112. -/
theorem test_pseudo :
    Pseudo.expand .loop = [.txDrain, .rxParse, .tmrDispatch] ∧
    Pseudo.expand (.tmrArm 1 5 true) = [.tmrSetp 1 5, .tmrStart 1 true] := by decide

/-! ### Ports, faults, reset -/

/-- E10: illegality is checked before context. -/
theorem test_illegal_before_context :
    (takes start4 .irq 0x08000000 []).map State.fault = some (some ⟨.illegal, 0x08000000⟩) := by decide

/-- E11: context is checked before the operand. -/
theorem test_context_before_operand :
    (takes start4 .irq 0x02090001 []).map State.fault = some (some ⟨.context, 0x02090001⟩) := by decide

/-- E12. -/
theorem test_tick_on_coop_port :
    (takes start4 .coop 0x05000000 []).map State.fault = some (some ⟨.context, 0x05000000⟩) := by decide

/-- E15: a halted BSC takes no step. -/
theorem test_halted :
    takes { start4 with fault := some ⟨.illegal, 0x08000000⟩ } .coop 0x11000000 [] =
      some { start4 with fault := some ⟨.illegal, 0x08000000⟩ } := by decide

/-- Z8. -/
theorem test_reset_after_fault :
    nextState (step { ringB8 with fault := some ⟨.rbUnderflow, 0x15000003⟩, inputs := [.reset] }) =
      some start4 := by decide

/-! ### Soft-Timer Multiplexer -/

/-- T1. -/
theorem test_tmrCreate :
    (nextState (exec (.tmrCreate 0x0011) (slot0 Timer.reset))).map
      (fun t => (t.results, t.tmrCount, t.tmr[1].cb, t.tmr[1].enabled)) = some ([1], 2, 0x0011, false) := by
  decide

/-- L1.9: the sixth create. -/
theorem test_tmrCreate_full :
    nextState (exec (.tmrCreate 0x0001) { start4 with tmrCount := 5 }) =
      some { start4 with tmrCount := 5, results := [0xFF] } := by decide

/-- R172, L1.8: a shrink leaves `elapsed`. -/
theorem test_tmrSetp :
    nextState (exec (.tmrSetp 0 4) (slot0 (running 10 6 true))) = some (slot0 (running 4 6 true)) := by decide

/-- T2. -/
theorem test_tmrSetp_unclaimed :
    (nextState (exec (.tmrSetp 1 5) (slot0 Timer.reset))).map State.fault =
      some (some ⟨.badSlot, 0x02010005⟩) := by decide

/-- T10: a restart. -/
theorem test_tmrStart_restarts :
    nextState (exec (.tmrStart 0 true) (slot0 (running 5 3 false))) = some (slot0 (running 5 0 true)) := by
  decide

/-- T3. -/
theorem test_tmrStart_unclaimed :
    (nextState (exec (.tmrStart 7 true) { start4 with tmrCount := 5 })).map State.fault =
      some (some ⟨.badSlot, 0x03070001⟩) := by decide

/-- R176: `elapsed = 7` is kept. -/
theorem test_tmrStop :
    nextState (exec (.tmrStop 0) (slot0 (running 9 7 true))) =
      some (slot0 { running 9 7 true with enabled := false }) := by decide

/-- T9: the wrap. -/
theorem test_tmrTick_wraps :
    nextState (exec .tmrTick (slot0 (running 2 0xFFFF true))) = some (slot0 (running 2 0 true)) := by decide

/-- T16: accepted inside a window; T11: a Disabled slot does not count. -/
theorem test_tmrTick_in_window :
    (nextState (exec .tmrTick { slot0 (running 1 0 true) with coop := .callback 0 })).map
      (fun t => (t.tmr[0].elapsed, t.tmr[1].elapsed, t.fault)) = some (1, 0, none) := by decide

/-- T14. -/
theorem test_tmrDispatch_in_window :
    (nextState (exec .tmrDispatch { start4 with coop := .callback 0 })).map State.fault =
      some (some ⟨.context, 0x06000000⟩) := by decide

/-- T4. -/
theorem test_scan_unset_period :
    (nextState (step { slot0 { Timer.reset with enabled := true } with coop := .dispatch 0 })).map State.fault =
      some (some ⟨.unsetPeriod, 0x06000000⟩) := by decide

/-- T12: fires once and discards the excess. -/
theorem test_scan_fires :
    nextState (step { slot0 (running 5 7 true) with coop := .dispatch 0 }) =
      some { slot0 (running 5 0 true) with coop := .callback 0, trace := [.fire 0 0x0010] } := by decide

/-- T17. -/
theorem test_tmrCbret :
    nextState (exec .tmrCbret { start4 with coop := .callback 0 }) =
      some { start4 with coop := .dispatch 1 } := by decide

/-- E14. -/
theorem test_tmrCbret_idle :
    (nextState (exec .tmrCbret start4)).map State.fault = some (some ⟨.context, 0x07000000⟩) := by decide

/-! ### Ring Buffer -/

/-- B11. -/
theorem test_rbInit : nextState (exec .rbInit ringB8) = some { ringB8 with txRd := 0, txCnt := 0 } := by decide

/-- E1; B10. -/
theorem test_rbIsempty : (nextState (exec .rbIsempty start4)).map State.results = some [1] := by decide

/-- B13: accepted in a window. -/
theorem test_rbFree :
    (nextState (exec .rbFree { ringB8 with coop := .callback 0 })).map State.results = some [2] := by decide

/-- B12: the wrap. -/
theorem test_rbAdd_wraps :
    nextState (exec (.rbAdd 3 [7, 8, 9]) { start4 with txRd := 2, txCnt := 1 }) =
      some { start4 with txMem := ⟨[(0, 8), (1, 9), (3, 7)]⟩, txRd := 2, txCnt := 4 } := by decide

/-- B4. -/
theorem test_rbAdd_overflow :
    nextState (exec (.rbAdd 2 [9, 9]) { start4 with txCnt := 3 }) =
      some { start4 with txCnt := 3, fault := some ⟨.rbOverflow, 0x13000002⟩ } := by decide

/-- B8. -/
theorem test_rbPeek :
    nextState (exec .rbPeek ringB8) = some { ringB8 with trace := [.data [0xA1]], results := [1] } := by decide

/-- B10: no reset of `txRd`. -/
theorem test_rbRemove : nextState (exec (.rbRemove 2) ringB8) = some { ringB8 with txRd := 1, txCnt := 0 } := by
  decide

/-- B5. -/
theorem test_rbRemove_underflow :
    nextState (exec (.rbRemove 1) start4) =
      some { start4 with fault := some ⟨.rbUnderflow, 0x15000001⟩ } := by decide

/-! ### Serial receive and parser -/

/-- S2. -/
theorem test_rxByte :
    nextState (exec (.rxByte 0xBB) { start4 with rxMem := ⟨[(0, 0xAA)]⟩, rxWr := 1 }) = some stagedS2 := by decide

/-- S4. -/
theorem test_rxByte_dropped : nextState (exec (.rxByte 0xCC) stagedFull) = some stagedFull := by decide

/-- S3: both cursors reset. -/
theorem test_rxRead_last :
    nextState (exec .rxRead { stagedS2 with rxRd := 1 }) =
      some { stagedS2 with rxRd := 0, rxWr := 0, results := [0xBB] } := by decide

/-- S1. -/
theorem test_rxRead_empty :
    (nextState (exec .rxRead start4)).map State.fault = some (some ⟨.rxEmpty, 0x21000000⟩) := by decide

/-- R220's example. -/
theorem test_prsByte_good_frame :
    nextState (exec (.prsByte 0x35) { start4 with prsState := .expectEnd, prsId := 0x01, prsValue := 0x0064 }) =
      some { start4 with prsId := 0x01, prsValue := 0x0064, trace := [.storeWrite 0xA1 0x0064] } := by decide

/-- S12: a second 0x30 is a wrong terminator. -/
theorem test_prsByte_wrong_terminator :
    nextState (exec (.prsByte 0x30) { start4 with prsState := .expectEnd, prsId := 0x01, prsValue := 0x0064 }) =
      some { start4 with prsId := 0x01, prsValue := 0x0064 } := by decide

/-- S17. -/
theorem test_rxParse_in_window :
    (nextState (exec .rxParse { start4 with coop := .callback 0 })).map State.fault =
      some (some ⟨.context, 0x23000000⟩) := by decide

/-- R221: one micro-step pops 0x30 and parses it. -/
theorem test_parse_micro_step :
    nextState (step { stagedFull with coop := .parse }) =
      some { stagedFull with coop := .parse, rxRd := 1, prsState := .expectId } := by decide

/-- R120, R210: with `RXCAP = 4` the fifth byte of a frame is dropped. -/
theorem test_frame_with_four_places :
    nextState (exec (.frame 0x01 0x0264) start4) =
      some { start4 with rxMem := ⟨[(0, 0x30), (1, 0x01), (2, 0x02), (3, 0x64)]⟩, rxWr := 4 } := by decide

/-- R120: byte 0 of the wire is bits 39:32. -/
theorem test_frame_from_the_wire :
    (nextState (step { start8 with inputs := [.wire 0x3001026435] })).map (fun t => t.rxMem.readRun 0 5) =
      some [0x30, 0x01, 0x02, 0x64, 0x35] := by decide

/-- R122: five bytes that make no frame are received all the same. -/
theorem test_no_frame_from_the_wire :
    (nextState (step { start8 with inputs := [.wire 0x3001006436] })).map
      (fun t => (t.rxMem.readRun 0 5, t.rxWr, t.fault)) = some ([0x30, 0x01, 0x00, 0x64, 0x36], 5, none) := by
  decide

/-! ### Serial transmit -/

/-- R314: the UART lowers `TX_READY`, also while the BSC is halted. -/
theorem test_txReady_input :
    nextState (step { start8 with inputs := [.txReady false] }) = some { start8 with txReady := false } ∧
    nextState (step { start8 with
        fault := some ⟨.illegal, 0x08000000⟩, inputs := [.txReady false, .own] }) =
      some { start8 with fault := some ⟨.illegal, 0x08000000⟩, txReady := false, inputs := [.own] } := by
  decide

/-- X2: exactly full. -/
theorem test_txSend_fills :
    nextState (exec (.txSend 2 [1, 2]) { start8 with txCnt := 6 }) =
      some { start8 with txMem := ⟨[(6, 1), (7, 2)]⟩, txCnt := 8, results := [1] } := by decide

/-- X16: on the interrupt port the payload is consumed and nothing is stored. -/
theorem test_txSend_on_irq_port :
    takes start8 .irq 0x28000001 [0x01] =
      some { start8 with fault := some ⟨.context, 0x28000001⟩ } := by decide

/-- X6: high byte first. -/
theorem test_txPacket :
    nextState (exec (.txPacket 0x05 0xBEEF) start8) =
      some { start8 with
        txMem := ⟨[(0, 0x30), (1, 0x05), (2, 0xBE), (3, 0xEF), (4, 0x35)]⟩, txCnt := 5, results := [1] } := by
  decide

/-- X4. -/
theorem test_txPacket_no_room :
    nextState (exec (.txPacket 0x05 0xBEEF) { start8 with txCnt := 4 }) =
      some { start8 with txCnt := 4, results := [0] } := by decide

/-- R253's example. -/
theorem test_txByte :
    nextState (exec (.txByte 0x41) start8) =
      some { start8 with txMem := ⟨[(0, 0x41)]⟩, txCnt := 1, results := [1] } := by decide

/-- X7. -/
theorem test_txByte_full :
    nextState (exec (.txByte 0x41) { start8 with txCnt := 8 }) =
      some { start8 with txCnt := 8, results := [0] } := by decide

/-- X15. -/
theorem test_txDrain_in_window :
    (nextState (exec .txDrain { start8 with coop := .callback 0 })).map State.fault =
      some (some ⟨.context, 0x2B000000⟩) := by decide

/-- X9, its first micro-step. -/
theorem test_drain_micro_step :
    nextState (step { start8 with
        txMem := ⟨[(0, 0x35), (6, 0x30), (7, 0x01)]⟩, txRd := 6, txCnt := 3, coop := .drain }) =
      some { start8 with
        txMem := ⟨[(0, 0x35), (6, 0x30), (7, 0x01)]⟩, txRd := 7, txCnt := 2, coop := .drain,
        trace := [.uartTx 0x30] } := by decide

/-! ### Placing a word where the next step takes it -/

theorem test_withFetchWord_command :
    (nextState (step (start4.withFetchWord 32 0x12000000))).map State.results = some [4] := by decide

theorem test_withFetchWord_payload_and_port :
    (nextState (step (start4.withFetchWord 32 0x13000002))).map State.txCnt = some 2 ∧
    (nextState (step (start4.withFetchWord 32 0x20410000))).map State.rxWr = some 1 ∧
    (nextState (step (start8.withFetchWord 40 0x3001006435))).map State.rxWr = some 5 := by decide

/-! ### Witnesses: states and operands that meet each obligation's hypotheses -/

/-- The invariants of a concrete state without a fault, part by part. -/
theorem inv_of_parts {s : State} (hring : s.txCnt ≤ s.txCap ∧ s.txRd < s.txCap)
    (hstaging : s.rxRd ≤ s.rxWr ∧ s.rxWr ≤ s.rxCap ∧ (s.rxRd < s.rxWr ∨ (s.rxRd = 0 ∧ s.rxWr = 0)))
    (htimers : ∀ j : Fin Config.timerSlots, s.tmrCount.val ≤ j.val →
      (s.tmr[j.val]'j.isLt).enabled = false ∧ (s.tmr[j.val]'j.isLt).periodSet = false)
    (htx : s.txMem.wf ∧ ∀ c ∈ s.txMem.cells, c.1 < s.txCap)
    (hrx : s.rxMem.wf ∧ ∀ c ∈ s.rxMem.cells, c.1 < s.rxCap)
    (hcoop : ∀ i : Fin Config.timerSlots, s.coop = .callback i → i.val < s.tmrCount.val)
    (hfault : s.fault = none) : s.Inv :=
  ⟨hring, hstaging, htimers, htx, hrx, hcoop, fun w h => by rw [hfault] at h; cases h⟩

/-- The ring of B8 in a state that meets the invariants and is idle. -/
theorem ringB8_inv : ringB8.Inv :=
  inv_of_parts (by decide) (by decide) (by decide) (by decide) (by decide) (by decide) rfl

/-- A full ring that wraps. -/
def ringFull : State :=
  { start4 with txMem := ⟨[(0, 3), (1, 4), (2, 1), (3, 2)]⟩, txRd := 2, txCnt := 4 }

theorem ringFull_inv : ringFull.Inv :=
  inv_of_parts (by decide) (by decide) (by decide) (by decide) (by decide) (by decide) rfl

theorem stagedS2_inv : stagedS2.Inv :=
  inv_of_parts (by decide) (by decide) (by decide) (by decide) (by decide) (by decide) rfl

theorem stagedFull_inv : stagedFull.Inv :=
  inv_of_parts (by decide) (by decide) (by decide) (by decide) (by decide) (by decide) rfl

theorem start8_inv : start8.Inv :=
  inv_of_parts (by decide) (by decide) (by decide) (by decide) (by decide) (by decide) rfl

theorem witness_DecodeOfEncodeIsTheInstruction :
    (Instr.rbAdd 2 [1, 2]).wellFormed = true ∧ (Instr.txSend 0 []).wellFormed = true ∧
    (Instr.frame 0x30 0xFFFF).wellFormed = true := by decide

theorem witness_DecodedPacketIsTheEncoding :
    decode (.command 0x28000000 []) = .ok (.txSend 0 []) ∧
    decode (.wire 0x30FFFFFF35) = .ok (.frame 0xFF 0xFFFF) := by decide

/-- The first condition of R105 and the second. -/
theorem illegal_words : IllegalWord 0x2C000000 ∧ IllegalWord 0x13010001 := by
  constructor <;> simp [IllegalWord, commandRows]

theorem witness_IllegalWordRaisesIllegalOnly :
    start4.fault = none ∧ IllegalWord 0x2C000000 ∧ ([] : List Byte).length = payloadLength 0x2C000000 ∧
    IllegalWord 0x13010001 ∧ [(0 : Byte)].length = payloadLength 0x13010001 :=
  ⟨rfl, illegal_words.1, by decide, illegal_words.2, by decide⟩

theorem witness_IllFormedPairIsRefused :
    [(0xAB : Byte)].length ≠ payloadLength 0x13000002 ∧ [(0xAB : Byte)].length ≠ payloadLength 0x11000000 := by
  decide

theorem witness_StepRunsTheArrivingInstruction :
    (Instr.rbAdd 1 [7]).wellFormed = true ∧
    inputOfPacket (encode (.rbAdd 1 [7])) = .word .coop 0x13000001 [7] ∧
    inputOfPacket (encode .tmrTick) = .word .irq 0x05000000 [] ∧
    inputOfPacket (encode (.frame 1 2)) = .wire 0x3001000235 := by decide

/-- Each clause of R303 that turns a command away; then commands that are let in. -/
theorem witness_PortAcceptance :
    encode (.txSend 1 [7]) = .command 0x28000001 [7] ∧
    TurnedAway .tmrTick .coop .idle ∧ TurnedAway (.txSend 1 [7]) .irq .idle ∧
    TurnedAway (.txSend 1 [7]) .coop (.dispatch 5) ∧ TurnedAway (.txSend 1 [7]) .coop .parse ∧
    TurnedAway (.txSend 1 [7]) .coop .drain ∧ TurnedAway .tmrCbret .coop .idle ∧
    TurnedAway .tmrDispatch .coop (.callback 4) ∧
    ¬ TurnedAway .tmrTick .irq .drain ∧ ¬ TurnedAway .tmrCbret .coop (.callback 4) :=
  ⟨by decide, .inl ⟨.inl rfl, rfl⟩, .inr ⟨by simp, .inl rfl⟩, .inr ⟨by simp, .inr (.inl ⟨5, rfl⟩)⟩,
    .inr ⟨by simp, .inr (.inr (.inl rfl))⟩, .inr ⟨by simp, .inr (.inr (.inr (.inl rfl)))⟩,
    .inr ⟨by simp, .inr (.inr (.inr (.inr (.inl ⟨rfl, rfl⟩))))⟩,
    .inr ⟨by simp, .inr (.inr (.inr (.inr (.inr ⟨⟨4, rfl⟩, .inl rfl⟩))))⟩,
    by simp [TurnedAway], by simp [TurnedAway]⟩

theorem witness_HaltedTakesNoStep :
    ({ start4 with fault := some ⟨.rxEmpty, 0x21000000⟩ } : State).fault ≠ none ∧
    ([] : List Byte).length = payloadLength 0x11000000 := by decide

theorem witness_RaisingChangesOnlyTheRecord :
    ∃ t, start4.fault = none ∧ step { start4 with inputs := [.word .coop 0x21000000 []] } = .next t ∧
      t.fault ≠ none := ⟨_, rfl, rfl, by decide⟩

theorem witness_OnlyResetClearsFault :
    ∃ t, step { start4 with fault := some ⟨.rxEmpty, 0x21000000⟩, inputs := [.reset] } = .next t ∧
      t.fault = none := ⟨_, rfl, rfl⟩

/-- A fault of a command and a fault of the pass. -/
theorem witness_FaultRecordsTheRaisingWord :
    (∃ t, step { start4 with inputs := [.word .coop 0x21000000 []] } = .next t ∧
      t.fault = some ⟨.rxEmpty, 0x21000000⟩) ∧
    ∃ t, step { slot0 { Timer.reset with enabled := true } with coop := .dispatch 0 } = .next t ∧
      t.fault = some ⟨.unsetPeriod, 0x06000000⟩ := ⟨⟨_, rfl, rfl⟩, ⟨_, rfl, rfl⟩⟩

theorem witness_ResetInputRestarts : ({ ringB8 with inputs := [.reset] } : State).inputs = .reset :: [] := rfl

theorem witness_StepKeepsInvariants :
    ringB8.Inv ∧ ∃ t, step ringB8 = .next t := ⟨ringB8_inv, _, rfl⟩

/-- For RB.PEEK, a memory that agrees with `TX` below its size 4 and differs at index 4; for the last
clause, the index just past `TX` and `RX`. -/
theorem witness_InvariantsRuleOutIndexFaults :
    stagedS2.Inv ∧ ringB8.Inv ∧
    (∀ a < ringB8.txCap, Memory.read ⟨[(0, 0xA2), (3, 0xA1), (4, 0xFF)]⟩ a = ringB8.txMem.read a) ∧
    (⟨[(0, 0xA2), (3, 0xA1), (4, 0xFF)]⟩ : Memory) ≠ ringB8.txMem ∧
    (∃ t, exec .rbPeek ringB8 = .next t ∧ t.results = [1]) ∧
    (∃ t, step { ringB8 with inputs := [.word .coop 0x13000002 [1, 2]] } = .next t ∧ t.txCnt = 4) ∧
    ringB8.txCap ≤ 4 ∧ ringB8.rxCap ≤ 4 :=
  ⟨stagedS2_inv, ringB8_inv, by decide, by decide, ⟨_, rfl, by decide⟩, ⟨_, rfl, by decide⟩, by decide,
    by decide⟩

/-- The level set while running and while halted, and a command that leaves it. -/
theorem witness_OnlyTheUartDrivesTxReady :
    ({ start4 with inputs := [.txReady false, .own] } : State).inputs = .txReady false :: [.own] ∧
    ({ start4 with fault := some ⟨.illegal, 0⟩, inputs := [.txReady false] } : State).inputs =
      .txReady false :: [] ∧
    (∃ t, step { ringB8 with coop := .drain } = .next t ∧ t.txReady = true) ∧
    ∃ t, exec .txDrain start4 = .next t ∧ t.txReady = true :=
  ⟨rfl, rfl, ⟨_, rfl, by decide⟩, _, rfl, by decide⟩

theorem witness_steps_of_a_running_machine :
    ∃ t, step { start4 with inputs := [.word .coop 0x010000A1 []] } = .next t ∧ t.tmrCount.val = 1 ∧
      t.results = [0] := ⟨_, rfl, by decide, by decide⟩

/-- A command on each port, RX.READ with a byte to spare and on the last one, and a micro-step of each
kind. -/
theorem witness_EachContextWritesItsOwnState :
    (∃ t, exec (.rxByte 7) start4 = .next t ∧ t.fault = none ∧ portOf (.rxByte 7) = .irq) ∧
    (∃ t, exec (.txByte 7) start4 = .next t ∧ t.fault = none ∧ portOf (.txByte 7) = .coop) ∧
    (∃ t, exec .rxRead stagedS2 = .next t ∧ t.fault = none ∧ t.rxRd = 1 ∧ t.rxWr = 2) ∧
    (∃ t, exec .rxRead { stagedS2 with rxRd := 1 } = .next t ∧ t.fault = none ∧ t.rxRd = 0 ∧ t.rxWr = 0) ∧
    (∃ t, microStep { stagedS2 with coop := .parse } = .next t ∧ t.rxRd = 1) ∧
    (∃ t, microStep { ringB8 with coop := .drain } = .next t ∧ t.txCnt = 1) ∧
    ∃ t, microStep { slot0 (running 5 5 true) with coop := .dispatch 0 } = .next t ∧ t.coop = .callback 0 :=
  ⟨⟨_, rfl, rfl, rfl⟩, ⟨_, rfl, rfl, rfl⟩, ⟨_, rfl, rfl, by decide, by decide⟩,
    ⟨_, rfl, rfl, by decide, by decide⟩, ⟨_, rfl, by decide⟩, ⟨_, rfl, by decide⟩, ⟨_, rfl, by decide⟩⟩

theorem start4_open : start4.Open := ⟨rfl, .inl rfl⟩

/-- An open callback window lets commands in too. -/
theorem window_open : ({ slot0 (running 1 0 true) with coop := .callback 0 } : State).Open :=
  ⟨rfl, .inr ⟨0, rfl⟩⟩

/-- The last free slot, and a full table. -/
theorem witness_CreateClaimsTheNextSlot :
    start4.Open ∧ ({ start4 with tmrCount := 4 } : State).tmrCount.val < Config.timerSlots ∧
    ({ start4 with tmrCount := 5 } : State).tmrCount.val = Config.timerSlots :=
  ⟨start4_open, by decide, rfl⟩

/-- The last claimed slot and the first not claimed: for TMR.SETP, TMR.START, TMR.STOP and `tmr.arm`. -/
theorem witness_commands_on_a_slot :
    ({ start4 with tmrCount := 5 } : State).Open ∧
    (4 : Byte).toNat < ({ start4 with tmrCount := 5 } : State).tmrCount.val ∧
    (4 : Byte).toNat < Config.timerSlots ∧
    (slot0 Timer.reset).Open ∧ (slot0 Timer.reset).tmrCount.val ≤ (1 : Byte).toNat :=
  ⟨⟨rfl, .inl rfl⟩, by decide, by decide, ⟨rfl, .inl rfl⟩, by decide⟩

/-- A Running slot and a Disabled one. -/
theorem witness_TickAdvancesRunningSlotsOnly :
    (slot0 (running 2 0xFFFF true)).fault = none ∧
    (slot0 (running 2 0xFFFF true)).tmr[0].enabled = true ∧
    (slot0 (running 2 0xFFFF true)).tmr[1].enabled = false := by decide

theorem witness_MultiStepCommandsBegin : start4.Idle := ⟨rfl, rfl⟩

theorem witness_CbretClosesTheWindow :
    ({ start4 with coop := .callback 4 } : State).fault = none ∧
    ({ start4 with coop := .callback 4 } : State).coop = .callback 4 ∧
    ∀ j, start4.coop ≠ .callback j := by decide

/-- The BSC alone, at the end of the inputs and with a tick behind its own step: for the micro-steps of a
pass, of RX.PARSE and of a drain, and for the states with none. -/
theorem alone_with_a_tick_behind :
    start4.Alone ∧
    ({ slot0 (running 5 5 true) with coop := .dispatch 0, inputs := [.own, .word .irq 0x05000000 []] } : State).Alone ∧
    ({ stagedS2 with coop := .parse, inputs := [.own, .word .irq 0x05000000 []] } : State).Alone ∧
    ({ ringB8 with coop := .drain, inputs := [.own, .word .irq 0x05000000 []] } : State).Alone ∧
    ({ start4 with inputs := [.own, .word .irq 0x05000000 []] } : State).Alone :=
  ⟨.inl rfl, .inr ⟨_, rfl⟩, .inr ⟨_, rfl⟩, .inr ⟨_, rfl⟩, .inr ⟨_, rfl⟩⟩

/-- Each case of the dispatch micro-step (`Alone` above): the end, a Disabled slot, an unset period, not due, due with
`elapsed = period` as auto-reload and as one-shot. -/
theorem witness_DispatchMicroStep :
    (Fin.last Config.timerSlots).val = Config.timerSlots ∧
    (slot0 Timer.reset).tmr[0].enabled = false ∧
    (slot0 { Timer.reset with enabled := true }).tmr[0].periodSet = false ∧
    (slot0 (running 5 4 true)).tmr[0].elapsed.toNat < (slot0 (running 5 4 true)).tmr[0].period.toNat ∧
    (slot0 (running 5 5 true)).tmr[0].period.toNat ≤ (slot0 (running 5 5 true)).tmr[0].elapsed.toNat ∧
    (slot0 (running 5 5 true)).tmr[0].autoReload = true ∧
    (slot0 (running 0 0 false)).tmr[0].period.toNat ≤ (slot0 (running 0 0 false)).tmr[0].elapsed.toNat ∧
    (slot0 (running 0 0 false)).tmr[0].autoReload = false := by decide

/-- `Alone` above. -/
theorem witness_NothingToDoRepeatsTheState :
    start4.Alone ∧ start4.coop = .idle ∧
    ({ ringB8 with coop := .drain, txReady := false } : State).coop = .drain ∧
    ({ ringB8 with coop := .drain, txReady := false } : State).txReady = false ∧
    ({ ringB8 with coop := .drain, txReady := false } : State).txCnt ≠ 0 :=
  ⟨.inl rfl, by decide, by decide, by decide, by decide⟩

/-- An idle BSC with one auto-reload slot just started and every Running slot's period set. -/
theorem witness_AutoReloadFiresOncePerPeriod :
    (slot0 (running 3 0 true)).Idle ∧ (slot0 (running 3 0 true)).PeriodsSet ∧
    (slot0 (running 3 0 true)).tmr[0].enabled = true ∧ (slot0 (running 3 0 true)).tmr[0].autoReload = true ∧
    (slot0 (running 3 0 true)).tmr[0].elapsed = 0 ∧ 1 ≤ (slot0 (running 3 0 true)).tmr[0].period.toNat :=
  ⟨⟨rfl, rfl⟩, by unfold State.PeriodsSet; decide, by decide, by decide, by decide, by decide⟩

theorem witness_PassFiresDueSlotsInOrder :
    (slot0 (running 2 2 true)).Idle ∧ (slot0 (running 2 2 true)).PeriodsSet ∧
    (slot0 (running 2 2 true)).due 0 = true :=
  ⟨⟨rfl, rfl⟩, by unfold State.PeriodsSet; decide, by decide⟩

/-- Periods 2 and 0, before and at the round that fires. -/
theorem witness_OneShotFiresExactlyOnce :
    (slot0 (running 2 0 false)).Idle ∧ (slot0 (running 2 0 false)).PeriodsSet ∧
    (slot0 (running 2 0 false)).tmr[0].enabled = true ∧ (slot0 (running 2 0 false)).tmr[0].autoReload = false ∧
    (slot0 (running 2 0 false)).tmr[0].elapsed = 0 ∧
    1 < max 1 (slot0 (running 2 0 false)).tmr[0].period.toNat ∧
    max 1 (slot0 (running 2 0 false)).tmr[0].period.toNat ≤ 2 ∧
    max 1 (slot0 (running 0 0 false)).tmr[0].period.toNat ≤ 1 :=
  ⟨⟨rfl, rfl⟩, by unfold State.PeriodsSet; decide, by decide, by decide, by decide, by decide, by decide,
    by decide⟩

theorem witness_RbInitEmpties : ringB8.Open := ⟨rfl, .inl rfl⟩

/-- An empty ring, one that wraps and a full one. -/
theorem witness_RbQueriesOnlyAnswer :
    start4.RingOk ∧ ringB8.RingOk ∧ ringFull.Open ∧ ringFull.RingOk :=
  ⟨by unfold State.RingOk; decide, ringB8_inv.ring, ⟨rfl, .inl rfl⟩, ringFull_inv.ring⟩

/-- A payload that fills the ring exactly, and one byte more. -/
theorem witness_RbAddAppendsOrFaults :
    ringB8.Open ∧ ringB8.Inv ∧ [(1 : Byte), 2].length = (2 : Half).toNat ∧
    (2 : Half).toNat ≤ ringB8.txCap - ringB8.txCnt ∧
    [(1 : Byte), 2, 3].length = (3 : Half).toNat ∧ ringB8.txCap - ringB8.txCnt < (3 : Half).toNat :=
  ⟨⟨rfl, .inl rfl⟩, ringB8_inv, by decide, by decide, by decide, by decide⟩

/-- All that is buffered, and one byte more. -/
theorem witness_RbRemoveFreesOrFaults :
    ringB8.Open ∧ (2 : Half).toNat ≤ ringB8.txCnt ∧ ringB8.txCnt < (3 : Half).toNat :=
  ⟨⟨rfl, .inl rfl⟩, by decide, by decide⟩

theorem witness_RingConservesBytes :
    start8.Open ∧ start8.Inv ∧ start8.txCnt = 0 ∧
    ∃ t, execAll [.rbAdd 2 [1, 2], .rbRemove 1] start8 = some t ∧ t.fault = none :=
  ⟨⟨rfl, .inl rfl⟩, start8_inv, rfl, _, rfl, rfl⟩

theorem witness_RingIsAQueue :
    ringB8.Open ∧ ringB8.Inv ∧
    (∃ t, t.fault = none ∧ exec (.rbAdd 2 [1, 2]) ringB8 = .next t) ∧
    (∃ t, t.fault = none ∧ exec (.rbRemove 2) ringB8 = .next t) ∧
    (∃ t, t.fault = none ∧ exec .rbInit ringB8 = .next t) ∧
    ∃ t, t.fault = none ∧ exec .rbPeek ringB8 = .next t :=
  ⟨⟨rfl, .inl rfl⟩, ringB8_inv, ⟨_, by exact (rfl : start4.fault = none), rfl⟩, ⟨_, by exact (rfl : start4.fault = none), rfl⟩,
    ⟨_, by exact (rfl : start4.fault = none), rfl⟩, ⟨_, by exact (rfl : start4.fault = none), rfl⟩⟩

theorem witness_TwoPeeksYieldEveryByte : ringFull.Open ∧ ringFull.Inv := ⟨⟨rfl, .inl rfl⟩, ringFull_inv⟩

/-- The last free place, and none. -/
theorem witness_RxByteStoresOrDrops :
    start4.fault = none ∧ stagedS2.rxMem.wf ∧ ({ stagedS2 with rxWr := 3 } : State).rxWr < stagedS2.rxCap ∧
    stagedFull.rxCap ≤ stagedFull.rxWr := by decide

/-- Two bytes staged, the last one, none. -/
theorem witness_RxReadPopsOrFaults :
    stagedS2.Open ∧ stagedS2.StagingOk ∧ stagedS2.rxRd + 1 < stagedS2.rxWr ∧
    ({ stagedS2 with rxRd := 1 } : State).StagingOk ∧ ({ stagedS2 with rxRd := 1 } : State).rxRd + 1 = stagedS2.rxWr ∧
    start4.StagingOk ∧ start4.rxRd = start4.rxWr :=
  ⟨⟨rfl, .inl rfl⟩, stagedS2_inv.staging, by decide, by unfold State.StagingOk; decide, by decide,
    by unfold State.StagingOk; decide, by decide⟩

theorem witness_StagingIsAQueue :
    stagedS2.Inv ∧ stagedFull.Inv ∧
    (∃ t, exec (.rxByte 7) stagedS2 = .next t ∧ t.fault = none) ∧
    stagedS2.Open ∧ ∃ t, exec .rxRead stagedS2 = .next t ∧ t.fault = none :=
  ⟨stagedS2_inv, stagedFull_inv, ⟨_, rfl, rfl⟩, ⟨rfl, .inl rfl⟩, _, rfl, rfl⟩

theorem witness_OverflowKeepsTheFirstBytes : start8.fault = none ∧ start8.Inv ∧ start8.rxWr = 0 :=
  ⟨rfl, start8_inv, rfl⟩

/-- Each state of the parser. -/
theorem witness_ParserTakesAFrameByte :
    start4.Open ∧ start4.prsState = .seeking ∧ (0x41 : Byte) ≠ 0x30 ∧
    ({ start4 with prsState := .expectId } : State).prsState = .expectId ∧
    ({ start4 with prsState := .expectHigh } : State).prsState = .expectHigh ∧
    ({ start4 with prsState := .expectLow } : State).prsState = .expectLow :=
  ⟨start4_open, by decide, by decide, by decide, by decide, by decide⟩

/-- A known id, an unknown id, a wrong terminator. -/
theorem witness_ParserEndsTheFrame :
    ({ start4 with prsState := .expectEnd, prsId := 0x01 } : State).Open ∧
    lookupAddr start4.params.paramMap 0x01 = some 0xA1 ∧ lookupAddr start4.params.paramMap 0x7F = none ∧
    (0x30 : Byte) ≠ 0x35 := ⟨⟨rfl, .inl rfl⟩, by decide, by decide, by decide⟩

theorem witness_ParamMapIsInjective :
    lookupAddr start4.params.paramMap 0x05 = some 0xA5 := by decide

theorem witness_ParserAssemblesAnyFrame : start4.Open ∧ start4.prsState = .seeking := ⟨start4_open, rfl⟩

theorem witness_ParserResynchronises :
    start4.Open ∧ start4.prsState = .seeking ∧ (0x36 : Byte) ≠ 0x35 := ⟨start4_open, rfl, by decide⟩

/-- A byte to spare and the last one; `Alone` with an input behind it is `alone_with_a_tick_behind`. -/
theorem witness_ParseMicroStep :
    ({ stagedS2 with coop := .parse } : State).fault = none ∧
    ({ stagedS2 with coop := .parse } : State).StagingOk ∧ ({ stagedS2 with coop := .parse } : State).Alone ∧
    stagedS2.rxRd + 1 < stagedS2.rxWr ∧
    ({ stagedS2 with coop := .parse, rxRd := 1 } : State).StagingOk ∧
    ({ stagedS2 with coop := .parse, rxRd := 1 } : State).rxRd + 1 = stagedS2.rxWr :=
  ⟨rfl, stagedS2_inv.staging, .inl rfl, by decide, by unfold State.StagingOk; decide, by decide⟩

theorem witness_ParseRunConsumesEveryByte :
    ({ stagedFull with coop := .parse } : State).fault = none ∧ ({ stagedFull with coop := .parse } : State).Inv ∧
    ({ stagedFull with coop := .parse } : State).coop = .parse ∧
    ({ stagedFull with coop := .parse } : State).inputs = [] :=
  ⟨rfl, inv_of_parts (by decide) (by decide) (by decide) (by decide) (by decide) (by decide) rfl, rfl, rfl⟩

/-- Room for exactly five bytes. -/
theorem witness_FrameArrivesAsFiveBytes :
    ({ start8 with rxWr := 3 } : State).fault = none ∧ ({ start8 with rxWr := 3 } : State).rxMem.wf ∧
    ({ start8 with rxWr := 3 } : State).rxWr + 5 ≤ start8.rxCap := by decide

/-- Five bytes that are no frame, five that are, and more than fit. -/
theorem witness_AnyFiveWireBytesAreReceived :
    start8.fault = none ∧ decode (.wire 0x3001006436) = .error .notAFrame ∧
    decode (.wire 0x3001006435) = .ok (.frame 1 0x64) ∧ start4.fault = none ∧ start4.rxCap < 5 := by decide

theorem witness_FrameOnTheWireReachesStorage :
    start8.Idle ∧ start8.Inv ∧ start8.rxWr = 0 ∧ 5 ≤ start8.rxCap ∧ start8.prsState = .seeking ∧
    lookupAddr start8.params.paramMap 0x01 = some 0xA1 :=
  ⟨⟨rfl, rfl⟩, start8_inv, rfl, by decide, rfl, by decide⟩

theorem witness_InterruptEventsCommute : ∃ t, execAll [.tmrTick, .rxByte 7] start4 = some t := ⟨_, rfl⟩

/-- Each of the three commands, with exactly enough room. -/
theorem witness_SendEnqueuesAllOrNothing :
    SendsBytes (.txSend 2 [1, 2]) [1, 2] ∧ SendsBytes (.txPacket 5 0xBEEF) [0x30, 5, 0xBE, 0xEF, 0x35] ∧
    SendsBytes (.txByte 7) [7] ∧ ringB8.Open ∧ ringB8.Inv ∧
    [(1 : Byte), 2].length ≤ ringB8.txCap - ringB8.txCnt ∧ start8.Open ∧ start8.Inv ∧
    [(0x30 : Byte), 5, 0xBE, 0xEF, 0x35].length ≤ start8.txCap - start8.txCnt :=
  ⟨.inl ⟨2, by decide, rfl⟩, .inr (.inl ⟨5, 0xBEEF, rfl, by decide⟩), .inr (.inr ⟨7, rfl, rfl⟩),
    ⟨rfl, .inl rfl⟩, ringB8_inv, by decide, ⟨rfl, .inl rfl⟩, start8_inv, by decide⟩

/-- One byte too many. -/
theorem witness_SendEnqueuesAllOrNothing_without_room :
    SendsBytes (.txSend 3 [1, 2, 3]) [1, 2, 3] ∧ ringB8.Open ∧
    ringB8.txCap - ringB8.txCnt < [(1 : Byte), 2, 3].length ∧
    ringFull.Open ∧ ringFull.txCap - ringFull.txCnt < [(7 : Byte)].length :=
  ⟨.inl ⟨3, by decide, rfl⟩, ⟨rfl, .inl rfl⟩, by decide, ⟨rfl, .inl rfl⟩, by decide⟩

/-- Bytes to send and none; `Alone` as above. -/
theorem witness_DrainMicroStep :
    ({ ringB8 with coop := .drain } : State).fault = none ∧ ({ ringB8 with coop := .drain } : State).RingOk ∧
    ({ ringB8 with coop := .drain } : State).Alone ∧ ringB8.txCnt ≠ 0 ∧ ringB8.txReady = true ∧
    ({ start4 with coop := .drain } : State).RingOk ∧ start4.txCnt = 0 :=
  ⟨rfl, ringB8_inv.ring, .inl rfl, by decide, by decide, by unfold State.RingOk; decide, by decide⟩

theorem witness_DrainRunSendsEveryByte :
    ({ ringFull with coop := .drain } : State).fault = none ∧ ({ ringFull with coop := .drain } : State).Inv ∧
    ({ ringFull with coop := .drain } : State).coop = .drain ∧
    ({ ringFull with coop := .drain } : State).txReady = true ∧
    ({ ringFull with coop := .drain } : State).inputs = [] :=
  ⟨rfl, inv_of_parts (by decide) (by decide) (by decide) (by decide) (by decide) (by decide) rfl, rfl, rfl, rfl⟩

theorem witness_NothingIsAddedDuringADrain :
    ({ ringB8 with coop := .drain } : State).Inv ∧ ∃ t, step { ringB8 with coop := .drain } = .next t :=
  ⟨inv_of_parts (by decide) (by decide) (by decide) (by decide) (by decide) (by decide) rfl, _, rfl⟩

end Sys2Proof.Tests
end

/-! ## Scope (spec/00_scope.md): `PARAM_MAP` (R9) and the indices of `TX` and `RX` (R14) -/

namespace Sys2Proof.Machine

open Sys2Proof

/-! ### `PARAM_MAP` (R9, R124) -/

/-- What `PARAM_MAP` answers is one of its entries. -/
theorem mem_entries_of_lookupAddr {m : ParamMap} {id : Byte} {addr : StorageAddr}
    (h : lookupAddr m id = some addr) : (id, addr) ∈ m.entries := by
  obtain ⟨before, after, heq, -⟩ := List.lookup_eq_some_iff.mp h
  simp [heq]

theorem lookupAddr_isSome_of_mem {m : ParamMap} {id : Byte} (h : id ∈ m.entries.map Prod.fst) :
    ∃ addr, lookupAddr m id = some addr := by
  obtain ⟨entry, hmem, rfl⟩ := List.mem_map.mp h
  exact Option.isSome_iff_exists.mp (List.lookup_isSome_iff.mpr ⟨entry, hmem, beq_self_eq_true _⟩)

/-- Two entries with one address are one entry, so they have one id. -/
theorem lookupAddr_injective {m : ParamMap} {i j : Byte} {addr : StorageAddr}
    (hi : lookupAddr m i = some addr) (hj : lookupAddr m j = some addr) : i = j :=
  congrArg Prod.fst (List.inj_on_of_nodup_map m.addrs_distinct
    (mem_entries_of_lookupAddr hi) (mem_entries_of_lookupAddr hj) rfl)

/-- Settles O47: the ids of the map include 0x01, and its addresses are distinct. -/
theorem paramMapIsInjective : Obligations.ParamMapIsInjective := fun m =>
  ⟨lookupAddr_isSome_of_mem m.knows_one, fun _ _ _ => lookupAddr_injective⟩

/-! ### No step forms an index outside its memory (R14)

Only `popRx` and the drain micro-step ask for a byte at a cursor; S1 (R42) and B1 (R39) bound the two
cursors. -/

/-- With a byte staged, S1 puts the read cursor inside `RX`. -/
theorem State.StagingOk.rxRd_lt {s : State} (h : s.StagingOk) (hne : s.rxRd ≠ s.rxWr) :
    s.rxRd < s.rxCap := by
  obtain ⟨hle, hcap, -⟩ := h
  omega

theorem popRx_of_stagingOk {s : State} (h : s.StagingOk) (hne : s.rxRd ≠ s.rxWr) :
    s.popRx = some (s.rxMem.read s.rxRd, s.passByte) :=
  popRx_of_lt (h.rxRd_lt hne)

theorem parseStep_ne_fault {s : State} (h : s.StagingOk) (f : Fault) : s.parseStep ≠ .fault f := by
  unfold State.parseStep
  split
  · simp
  · next hne => simp [popRx_of_stagingOk h hne]

theorem drainStep_ne_fault {s : State} (h : s.RingOk) (f : Fault) : s.drainStep ≠ .fault f := by
  unfold State.drainStep
  split
  · simp
  · split
    · simp [h.2]
    · simp

theorem microStep_ne_fault {s : State} (h : s.Inv) (f : Fault) : microStep s ≠ .fault f := by
  unfold microStep
  split
  · simp
  · cases s.coop with
    | idle | dispatch | callback => simp
    | parse => exact parseStep_ne_fault h.staging f
    | drain => exact drainStep_ne_fault h.ring f

theorem ruleOf_ne_fault {s : State} (h : s.StagingOk) (i : Instr) (f : Fault) :
    ruleOf i s ≠ .fault f := by
  cases i
  case rxRead =>
    simp only [ruleOf]
    split
    · simp
    · next hne => simp [popRx_of_stagingOk h hne]
  all_goals simp [ruleOf]

theorem exec_ne_fault {s : State} (h : s.StagingOk) (i : Instr) (f : Fault) :
    exec i s ≠ .fault f := by
  intro hx
  rw [exec_eq] at hx
  split at hx
  · rcases command_cases hx with ⟨-, ho⟩ | ⟨-, -, ho⟩ | ⟨-, -, ho⟩
    · cases ho
    · exact ruleOf_ne_fault h i f ho
    · cases ho
  · cases hx

theorem takeInput_ne_fault {s : State} (h : s.Inv) (x : Input) (f : Fault) :
    takeInput x s ≠ .fault f := by
  cases x with
  | own => exact microStep_ne_fault h f
  | reset | txReady => simp [takeInput]
  | wire bits =>
    simp only [takeInput, arriveWire]
    split
    · exact exec_ne_fault h.staging _ f
    · simp
  | word p cw payload =>
    simp only [takeInput, arrive]
    split
    · simp
    · simp
    · split
      · exact exec_ne_fault h.staging _ f
      · simp

/-- From a state that meets the invariants no step stops the model with a fault of its own. -/
theorem step_ne_fault {s : State} (h : s.Inv) (f : Fault) : step s ≠ .fault f := by
  unfold step oneStep
  split
  · exact microStep_ne_fault h f
  · next hi => exact afterInput_of_cons hi ▸ takeInput_ne_fault (inv_afterInput h) _ f

/-! ### RB.PEEK reads below the size of `TX` (R145) -/

/-- The contiguous run ends at `TXBUFFER_SIZE` at the latest, so it reads the same from any memory that
agrees with `TX` below it. -/
theorem readRun_txRun_of_same_bytes {s : State} {m : Memory}
    (h : ∀ a < s.txCap, m.read a = s.txMem.read a) :
    m.readRun s.txRd s.txRun = s.txMem.readRun s.txRd s.txRun :=
  Memory.readRun_of_same_bytes fun k hk => h _ (by unfold State.txRun at hk; omega)

theorem exec_rbPeek_of_same_bytes {s t : State} {m : Memory}
    (hm : ∀ a < s.txCap, m.read a = s.txMem.read a) (h : exec .rbPeek s = .next t) :
    exec .rbPeek { s with txMem := m } = .next { t with txMem := m } := by
  obtain ⟨hw, ⟨hf, rfl⟩ | ⟨hf, ha, hrule⟩ | ⟨hf, ha, rfl⟩⟩ := exec_next_cases h
  · exact exec_halted (s := { t with txMem := m }) hw hf
  · obtain rfl := Host.Outcome.next.inj hrule
    calc exec .rbPeek { s with txMem := m }
      _ = .next ((State.emit { s with txMem := m } (.data (m.readRun s.txRd s.txRun))).deliver
            (BitVec.ofNat 32 s.txRun)) := exec_admitted (s := { s with txMem := m }) hw hf ha
      _ = _ := by rw [readRun_txRun_of_same_bytes hm]; rfl
  · exact exec_rejected (s := { s with txMem := m }) hw hf ha

/-! ### Every byte outside the memories reads as before (R14) -/

/-- The places the Ring Buffer stores to lie in `TX` (R144). -/
theorem txSlot_lt (s : State) (k : Nat) : s.txSlot k < s.txCap := Nat.mod_lt _ (txCap_pos s)

/-- Each byte outside `TX` and `RX`, as `s` sizes them, reads in `t` as in `s`. -/
def State.SameOutside (s t : State) : Prop :=
  ∀ a, (s.txCap ≤ a → t.txMem.read a = s.txMem.read a) ∧
    (s.rxCap ≤ a → t.rxMem.read a = s.rxMem.read a)

theorem sameOutside_of_memories {s t : State} (htx : t.txMem = s.txMem) (hrx : t.rxMem = s.rxMem) :
    s.SameOutside t := fun _ => ⟨fun _ => htx ▸ rfl, fun _ => hrx ▸ rfl⟩

theorem enqueue_sameOutside (s : State) (bytes : List Byte) : s.SameOutside (s.enqueue bytes) :=
  fun _ => ⟨fun ha => enqueue_read_other s fun k _ =>
    Nat.ne_of_gt (Nat.lt_of_lt_of_le (txSlot_lt s k) ha), fun _ => rfl⟩

theorem addBytes_sameOutside (s : State) (length : Half) (payload : List Byte) :
    s.SameOutside (s.addBytes length payload) := by
  unfold State.addBytes
  split
  · exact sameOutside_of_memories rfl rfl
  · exact enqueue_sameOutside s payload

theorem send_sameOutside (s : State) (bytes : List Byte) : s.SameOutside (s.send bytes) := by
  unfold State.send
  split
  · exact sameOutside_of_memories rfl rfl
  · exact enqueue_sameOutside s bytes

/-- A received byte is stored below `RXBUFFER_SIZE` or dropped (R210). -/
theorem receive_read_of_le (s : State) (b : Byte) {a : Nat} (ha : s.rxCap ≤ a) :
    (s.receive b).rxMem.read a = s.rxMem.read a := by
  by_cases hlt : s.rxWr < s.rxCap
  · rw [receive_stored hlt]
    exact Memory.read_write_other _ _ (by omega)
  · rw [receive_dropped (by omega)]

theorem receive_rxCap (s : State) (b : Byte) : (s.receive b).rxCap = s.rxCap := by
  rw [receive_frame]
  rfl

theorem receiveAll_read_of_le (s : State) (bytes : List Byte) {a : Nat} (ha : s.rxCap ≤ a) :
    (s.receiveAll bytes).rxMem.read a = s.rxMem.read a := by
  induction bytes generalizing s with
  | nil => rfl
  | cons b rest ih =>
    rw [State.receiveAll, ih _ (by rwa [receive_rxCap]), receive_read_of_le s b ha]

theorem receiveAll_sameOutside (s : State) (bytes : List Byte) :
    s.SameOutside (s.receiveAll bytes) :=
  fun _ => ⟨fun _ => by rw [receiveAll_frame], receiveAll_read_of_le s bytes⟩

theorem eq_passByte_of_popRx {s t : State} {b : Byte} (h : s.popRx = some (b, t)) :
    t = s.passByte := by
  unfold State.popRx at h
  split at h
  · cases h
    rfl
  · cases h

/-- `TX` is written by the enqueue alone and `RX` by the reception alone (R144, R210, R250). -/
theorem ruleOf_sameOutside {i : Instr} {s t : State} (h : ruleOf i s = .next t) :
    s.SameOutside t := by
  cases i <;> simp only [ruleOf, Host.Outcome.next.injEq] at h
  case rbAdd => exact h ▸ addBytes_sameOutside s _ _
  case txSend | txPacket | txByte => exact h ▸ send_sameOutside s _
  case rxByte b => exact h ▸ receiveAll_sameOutside s [b]
  case frame => exact h ▸ receiveAll_sameOutside s _
  case rxRead =>
    split at h
    · exact Host.Outcome.next.inj h ▸ sameOutside_of_memories rfl rfl
    · split at h
      · next hpop =>
        rw [← Host.Outcome.next.inj h, eq_passByte_of_popRx hpop, passByte_frame]
        exact sameOutside_of_memories rfl rfl
      · cases h
  case tmrCreate | tmrSetp | tmrStart | tmrStop | tmrCbret | rbRemove =>
    subst h
    simp only [State.createTimer, State.onSlot, State.closeWindow, State.removeBytes]
    split <;> exact sameOutside_of_memories rfl rfl
  case prsByte =>
    subst h
    rw [parseByte_frame]
    exact sameOutside_of_memories rfl rfl
  all_goals exact h ▸ sameOutside_of_memories rfl rfl

theorem exec_sameOutside {i : Instr} {s t : State} (h : exec i s = .next t) : s.SameOutside t := by
  obtain ⟨-, ⟨-, rfl⟩ | ⟨-, -, hrule⟩ | ⟨-, -, rfl⟩⟩ := exec_next_cases h
  · exact sameOutside_of_memories rfl rfl
  · exact ruleOf_sameOutside hrule
  · exact sameOutside_of_memories rfl rfl

/-- No micro-step writes a byte of either memory (R81). -/
theorem microStep_memories {s t : State} (h : microStep s = .next t) :
    t.txMem = s.txMem ∧ t.rxMem = s.rxMem := by
  rcases microStep_next_cases h with rfl | ⟨-, i, -, rfl⟩ | ⟨-, -, h⟩ | ⟨-, -, h⟩
  · exact ⟨rfl, rfl⟩
  · rcases scan_cases s i with ⟨-, h⟩ | ⟨_, ⟨-, h⟩ | ⟨-, -, h⟩ | ⟨-, -, -, h⟩ | ⟨-, -, -, h⟩⟩ <;>
    simp [h]
  · rcases parseStep_next_cases h with ⟨-, rfl⟩ | ⟨-, -, rfl⟩
    · exact ⟨rfl, rfl⟩
    · rw [parseByte_frame, passByte_frame]
      exact ⟨rfl, rfl⟩
  · rcases drainStep_next_cases h with ⟨-, rfl⟩ | ⟨-, -, -, rfl⟩ | ⟨-, -, rfl⟩ <;> exact ⟨rfl, rfl⟩

/-- Reset blanks both memories, and one that keeps to its size is blank outside it already. -/
theorem restart_sameOutside {s : State} (h : s.Inv) : s.SameOutside s.restart :=
  fun _ => ⟨fun ha => (read_of_size_le h.txMemory ha).symm,
    fun ha => (read_of_size_le h.rxMemory ha).symm⟩

theorem step_sameOutside {s t : State} (hs : s.Inv) (h : step s = .next t) : s.SameOutside t := by
  rcases step_next_cases h with ⟨-, h⟩ | ⟨i, -, h⟩ | ⟨-, -, rfl⟩ |
    ⟨-, p, cw, payload, rest, code, -, -, rfl⟩ | ⟨-, bits, rest, -, rfl⟩ | ⟨level, rest, -, rfl⟩ |
    ⟨rest, -, rfl⟩
  · obtain ⟨htx, hrx⟩ := microStep_memories h
    exact sameOutside_of_memories htx hrx
  · exact exec_sameOutside (s := s.afterInput) h
  · exact sameOutside_of_memories rfl rfl
  · exact sameOutside_of_memories rfl rfl
  · exact receiveAll_sameOutside s.afterInput _
  · exact sameOutside_of_memories rfl rfl
  · exact restart_sameOutside (s := s.afterInput) (inv_afterInput hs)

/-- Settles O16: B1 and S1 bound the cursors that are read at, `txSlot` is taken modulo the size, and
the stores and reset leave every byte outside the memories. -/
theorem invariantsRuleOutIndexFaults : Obligations.InvariantsRuleOutIndexFaults := fun s hs =>
  ⟨step_ne_fault hs, fun _ _ => exec_rbPeek_of_same_bytes, txSlot_lt s,
    fun _ => step_sameOutside hs⟩

end Sys2Proof.Machine

/-! ## State (spec/10_state.md): the invariants (R35, R39, R42), the fault record (R46), and what no step
writes or only lets grow (R32, R34, R44) -/

namespace Sys2Proof.Machine

open Sys2Proof

/-! ### What RX.READ can do (R213) -/

/-- RX.READ raises `F_RX_EMPTY`, or passes the oldest staged byte and delivers it. -/
theorem ruleOf_rxRead_next_cases {s t : State} (h : ruleOf .rxRead s = .next t) :
    (s.rxRd = s.rxWr ∧ t = s.raise .rxEmpty (commandWord .rxRead)) ∨
    (s.rxRd ≠ s.rxWr ∧ t = s.passByte.deliver ((s.rxMem.read s.rxRd).setWidth 32)) := by
  simp only [ruleOf] at h
  split at h
  · next he => exact .inl ⟨he, (Host.Outcome.next.inj h).symm⟩
  · next hne =>
    by_cases hc : s.rxRd < s.rxCap
    · rw [popRx_of_lt hc] at h
      exact .inr ⟨hne, (Host.Outcome.next.inj h).symm⟩
    · rw [State.popRx, if_neg hc] at h
      cases h

/-! ### Every rule keeps the invariants -/

theorem inv_withCoop {s : State} (h : s.Inv) {c : Coop}
    (hc : ∀ i, c = .callback i → i.val < s.tmrCount.val) : ({ s with coop := c } : State).Inv :=
  inv_of_same_fields h rfl rfl rfl rfl rfl rfl rfl rfl rfl hc h.fault

theorem inv_setTimer {s : State} (h : s.Inv) {i : Fin Config.timerSlots}
    (hi : i.val < s.tmrCount.val) (t : Timer) : (s.setTimer i t).Inv :=
  { h with timers := timersOk_setTimer h.timers i t hi }

/-- T1 read the other way: a Running slot is a claimed one (R35). -/
theorem State.TimersOk.lt_tmrCount_of_enabled {s : State} (h : s.TimersOk)
    {j : Fin Config.timerSlots} (he : (s.tmr[j.val]'j.isLt).enabled = true) :
    j.val < s.tmrCount.val := by
  by_contra hj
  simp [(h j (Nat.le_of_not_lt hj)).1] at he

theorem lt_tmrCount_of_claimedSlot {s : State} {slot : Byte} {k : Fin Config.timerSlots}
    (h : s.claimedSlot slot = some k) : k.val < s.tmrCount.val := by
  unfold State.claimedSlot at h
  split at h
  · next hlt => cases h; exact hlt
  · cases h

theorem inv_onSlot {s : State} (h : s.Inv) {i : Instr} (slot : Byte) (update : Timer → Timer) :
    (s.onSlot i slot update).Inv := by
  unfold State.onSlot
  split
  · next hk => exact inv_setTimer h (lt_tmrCount_of_claimedSlot hk) _
  · exact inv_raise h (.inl (by decide))

/-- The slot TMR.CREATE claims leaves the unclaimed ones; those behind it are as they were (R170). -/
theorem inv_createTimer {s : State} (h : s.Inv) (token : Half) : (s.createTimer token).Inv := by
  unfold State.createTimer
  split
  · refine { h with timers := fun j hj => ?_, coop := fun i hi => Nat.lt_succ_of_lt (h.coop i hi) }
    have hj : s.tmrCount.val + 1 ≤ j.val := hj
    simpa [Vector.getElem_set_ne _ _ (show s.tmrCount.val ≠ j.val by omega)] using
      h.timers j (by omega)
  · exact inv_deliver h _

theorem tick_enabled (t : Timer) : t.tick.enabled = t.enabled := by
  unfold Timer.tick; split <;> rfl

theorem tick_periodSet (t : Timer) : t.tick.periodSet = t.periodSet := by
  unfold Timer.tick; split <;> rfl

theorem inv_tick {s : State} (h : s.Inv) :
    ({ s with tmr := mapTimers Timer.tick s.tmr } : State).Inv :=
  { h with timers := fun j hj => by simpa [tick_enabled, tick_periodSet] using h.timers j hj }

theorem inv_closeWindow {s : State} (h : s.Inv) : s.closeWindow.Inv := by
  unfold State.closeWindow
  split
  · exact inv_withCoop h (by simp)
  · exact h

theorem inv_rbInit {s : State} (h : s.Inv) : ({ s with txRd := 0, txCnt := 0 } : State).Inv :=
  { h with ring := ⟨Nat.zero_le _, txCap_pos s⟩ }

theorem inv_addBytes {s : State} (h : s.Inv) {length : Half} {payload : List Byte}
    (hl : payload.length = length.toNat) : (s.addBytes length payload).Inv := by
  unfold State.addBytes
  split
  · exact inv_raise h (.inl (by decide))
  · exact inv_enqueue h payload (by omega)

theorem inv_removeBytes {s : State} (h : s.Inv) (count : Half) : (s.removeBytes count).Inv := by
  unfold State.removeBytes
  split
  · exact inv_raise h (.inl (by decide))
  · exact inv_dequeue h _

theorem inv_ruleOf {i : Instr} {s t : State} (hs : s.Inv) (hw : i.wellFormed = true)
    (h : ruleOf i s = .next t) : t.Inv := by
  cases i
  case rxRead =>
    rcases ruleOf_rxRead_next_cases h with ⟨-, rfl⟩ | ⟨hne, rfl⟩
    · exact inv_raise hs (.inl (by decide))
    · exact inv_deliver (inv_passByte hs hne) _
  all_goals obtain rfl := Host.Outcome.next.inj h
  case tmrCreate token => exact inv_createTimer hs token
  case tmrSetp slot _ | tmrStart slot _ | tmrStop slot => exact inv_onSlot hs slot _
  case tmrTick => exact inv_tick hs
  case tmrDispatch | rxParse | txDrain => exact inv_withCoop hs (by simp)
  case tmrCbret => exact inv_closeWindow hs
  case rbInit => exact inv_rbInit hs
  case rbIsempty | rbFree => exact inv_deliver hs _
  case rbAdd => exact inv_addBytes hs (by simpa [Instr.wellFormed, payloadFits] using hw)
  case rbPeek => exact inv_deliver (inv_emit hs _) _
  case rbRemove count => exact inv_removeBytes hs count
  case rxByte b => exact inv_receive hs b
  case prsByte b => exact inv_parseByte hs b
  case txSend | txPacket | txByte => exact inv_send hs _
  case frame => exact inv_receiveAll hs _

theorem inv_exec {i : Instr} {s t : State} (hs : s.Inv) (h : exec i s = .next t) : t.Inv := by
  obtain ⟨hw, ⟨-, rfl⟩ | ⟨-, -, hrule⟩ | ⟨-, -, rfl⟩⟩ := exec_next_cases h
  · exact hs
  · exact inv_ruleOf hs hw hrule
  · exact inv_raise hs (.inl (by decide))

/-! ### Every micro-step and reset keep the invariants -/

/-- The fired slot was Running, so T1 has it claimed, and its window is on a claimed slot (R182). -/
theorem inv_scan {s : State} (h : s.Inv) (i : Fin (Config.timerSlots + 1)) : (s.scan i).Inv := by
  rcases scan_cases s i with ⟨-, he⟩ | ⟨hi, ⟨-, he⟩ | ⟨-, -, he⟩ | ⟨-, -, -, he⟩ | ⟨hen, -, -, he⟩⟩ <;>
    rw [he]
  · exact inv_withCoop h (by simp)
  · exact inv_withCoop h (by simp)
  · exact inv_raise h (.inr (by decide))
  · exact inv_withCoop h (by simp)
  · have hlt : i.val < s.tmrCount.val := h.timers.lt_tmrCount_of_enabled (j := ⟨i.val, hi⟩) hen
    have hset := inv_setTimer h (i := ⟨i.val, hi⟩) hlt (s.tmr[i.val]'hi).fired
    exact inv_withCoop (inv_emit hset _) fun k hk => Coop.callback.inj hk ▸ hlt

theorem inv_parseStep {s t : State} (hs : s.Inv) (h : s.parseStep = .next t) : t.Inv := by
  rcases parseStep_next_cases h with ⟨-, rfl⟩ | ⟨hne, -, rfl⟩
  · exact inv_withCoop hs (by simp)
  · exact inv_parseByte (inv_passByte hs hne) _

theorem inv_drainStep {s t : State} (hs : s.Inv) (h : s.drainStep = .next t) : t.Inv := by
  rcases drainStep_next_cases h with ⟨-, rfl⟩ | ⟨-, -, -, rfl⟩ | ⟨-, -, rfl⟩
  · exact inv_withCoop hs (by simp)
  · exact inv_dequeue (inv_emit hs _) 1
  · exact hs

theorem inv_microStep {s t : State} (hs : s.Inv) (h : microStep s = .next t) : t.Inv := by
  rcases microStep_next_cases h with rfl | ⟨-, i, -, rfl⟩ | ⟨-, -, h⟩ | ⟨-, -, h⟩
  · exact hs
  · exact inv_scan hs i
  · exact inv_parseStep hs h
  · exact inv_drainStep hs h

theorem within_empty (size : Nat) : Memory.empty.Within size :=
  ⟨Memory.empty_wf, by simp [Memory.empty]⟩

/-- Every block meets the invariants after reset, whatever its parameters (R50). -/
theorem inv_resetWith (p : Params) (ready : Bool) : (State.resetWith p ready).Inv where
  ring := ⟨Nat.zero_le _, p.txBuffer.pos⟩
  staging := ⟨Nat.le_refl _, Nat.zero_le _, .inr ⟨rfl, rfl⟩⟩
  timers := fun j _ => by simp [State.resetWith, Timer.reset]
  txMemory := within_empty _
  rxMemory := within_empty _
  coop := coopOk_of_no_window (by simp [State.resetWith])
  fault := fun _ hw => by cases hw

theorem inv_restart (s : State) : s.restart.Inv :=
  { inv_resetWith s.params s.txReady with }

/-- Settles O14: `inv_resetWith` for the parameters of the reset machine. -/
theorem resetMeetsInvariants : Obligations.ResetMeetsInvariants :=
  inv_resetWith Config.params Config.txReadyAtStart

/-- Settles O15: each thing a step can do keeps the invariants. -/
theorem stepKeepsInvariants : Obligations.StepKeepsInvariants := by
  intro s t hs h
  replace hs := inv_afterInput hs
  rcases step_next_cases h with ⟨-, h⟩ | ⟨i, -, h⟩ | ⟨-, -, rfl⟩ |
    ⟨-, p, cw, payload, rest, code, -, hcode, rfl⟩ | ⟨-, bits, rest, -, rfl⟩ |
    ⟨level, rest, -, rfl⟩ | ⟨rest, -, rfl⟩
  · exact inv_microStep hs h
  · exact inv_exec hs h
  · exact hs
  · exact inv_raise hs (.inl (by rcases hcode with rfl | rfl <;> decide))
  · exact inv_receiveAll hs _
  · exact { hs with }
  · exact inv_restart _

/-! ### The word a decoded instruction came from (R100, R105) -/

theorem cmd32_eq_of_fields {cw : Word} {op a : Byte} {imm : Half} (hop : (opOf cw).toNat = op.toNat)
    (ha : aOf cw = a) (himm : immOf cw = imm) : cmd32 op a imm = cw := by
  rw [← BitVec.eq_of_toNat_eq hop, ← ha, ← himm, cmd32_fields]

/-- With `IMM[15:1]` zero, `IMM` is its bit 0, the operand `ar` (R101). -/
theorem arImm_of_reserved_zero {imm : Half} (h : imm.extractLsb' 1 15 = 0) :
    arImm (imm.getLsbD 0) = imm := by
  apply BitVec.eq_of_getLsbD_eq
  intro k hk
  cases k with
  | zero => cases h0 : imm.getLsbD 0 <;> simp [arImm]
  | succ n =>
    have hn : imm.getLsbD (n + 1) = false := by
      simpa [show n < 15 by omega, Nat.add_comm] using congrArg (·.getLsbD n) h
    cases h0 : imm.getLsbD 0 <;> simp [arImm, hn]

/-- The opcode map reads every field it does not check to be zero, so the instruction's own word is the
one it was read from. -/
theorem commandWord_of_decodeCommand {cw : Word} {payload : List Byte} {i : Instr}
    (h : decodeCommand cw payload = .ok i) : commandWord i = cw := by
  unfold decodeCommand at h
  split at h
  case h_22 => cases h -- no row has this opcode
  case h_3 hop => -- TMR.START: of `IMM` only bit 0 is an operand
    obtain ⟨hz, rfl⟩ := ifReserved_eq_ok h
    exact cmd32_eq_of_fields hop rfl (arImm_of_reserved_zero (by simpa using hz)).symm
  all_goals
    next hop =>
    obtain ⟨hz, rfl⟩ := ifReserved_eq_ok h
    refine cmd32_eq_of_fields hop ?_ ?_ <;> simp_all

theorem commandWord_of_decode {cw : Word} {payload : List Byte} {i : Instr}
    (h : decode (.command cw payload) = .ok i) : commandWord i = cw := by
  unfold decode at h
  dsimp only at h
  split at h
  · exact commandWord_of_decodeCommand h
  · cases h

theorem eq_frame_of_decode_wire {bits : BitVec 40} {i : Instr} (h : decode (.wire bits) = .ok i) :
    ∃ parameterId value, i = .frame parameterId value := by
  simp only [decode, decodeWire] at h
  split at h
  · exact ⟨_, _, (Except.ok.inj h).symm⟩
  · cases h

/-! ### Which faults a step can raise (R46, R300) -/

theorem receiveAll_fault (s : State) (bytes : List Byte) :
    (s.receiveAll bytes).fault = s.fault := by
  rw [receiveAll_frame]

theorem parseByte_fault (s : State) (b : Byte) : (s.parseByte b).fault = s.fault := by
  rw [parseByte_frame]

theorem passByte_fault (s : State) : s.passByte.fault = s.fault := by
  rw [passByte_frame]

/-- A rule keeps the record, or raises a fault with the command's own word. -/
theorem ruleOf_fault_cases {i : Instr} {s t : State} (h : ruleOf i s = .next t) :
    t.fault = s.fault ∨ ∃ code, t = s.raise code (commandWord i) := by
  cases i
  case rxRead =>
    rcases ruleOf_rxRead_next_cases h with ⟨-, rfl⟩ | ⟨-, rfl⟩
    · exact .inr ⟨_, rfl⟩
    · exact .inl (passByte_fault s)
  all_goals obtain rfl := Host.Outcome.next.inj h
  case tmrSetp | tmrStart | tmrStop =>
    unfold State.onSlot
    split
    · exact .inl rfl
    · exact .inr ⟨_, rfl⟩
  case rbAdd =>
    unfold State.addBytes
    split
    · exact .inr ⟨_, rfl⟩
    · exact .inl rfl
  case rbRemove =>
    unfold State.removeBytes
    split
    · exact .inr ⟨_, rfl⟩
    · exact .inl rfl
  case tmrCreate | tmrCbret | txSend | txPacket | txByte =>
    simp only [State.createTimer, State.closeWindow, State.send]
    split <;> exact .inl rfl
  case rxByte b => exact .inl (receiveAll_fault s [b])
  case frame => exact .inl (receiveAll_fault s _)
  case prsByte => exact .inl (parseByte_fault s _)
  all_goals exact .inl rfl

theorem exec_fault_cases {i : Instr} {s t : State} (h : exec i s = .next t) :
    t.fault = s.fault ∨ ∃ code, t = s.raise code (commandWord i) := by
  obtain ⟨-, ⟨-, rfl⟩ | ⟨-, -, hrule⟩ | ⟨-, -, rfl⟩⟩ := exec_next_cases h
  · exact .inl rfl
  · exact ruleOf_fault_cases hrule
  · exact .inr ⟨_, rfl⟩

/-- The wire raises no fault: a frame is let in whatever `coop` holds, and only stored (R122, R305). -/
theorem exec_frame_fault {parameterId : Byte} {value : Half} {s t : State}
    (h : exec (.frame parameterId value) s = .next t) : t.fault = s.fault := by
  obtain ⟨-, ⟨-, rfl⟩ | ⟨-, -, hrule⟩ | ⟨-, ha, -⟩⟩ := exec_next_cases h
  · rfl
  · exact Host.Outcome.next.inj hrule ▸ receiveAll_fault s _
  · cases ha

/-- Of the micro-steps only one of a dispatch pass raises a fault, with the word of the pass (R182). -/
theorem microStep_fault_cases {s t : State} (h : microStep s = .next t) :
    t.fault = s.fault ∨
    (∃ j, s.coop = .dispatch j) ∧ t = s.raise .unsetPeriod (commandWord .tmrDispatch) := by
  rcases microStep_next_cases h with rfl | ⟨-, i, hc, rfl⟩ | ⟨-, -, h⟩ | ⟨-, -, h⟩
  · exact .inl rfl
  · rcases scan_cases s i with ⟨-, he⟩ | ⟨_, ⟨-, he⟩ | ⟨-, -, he⟩ | ⟨-, -, -, he⟩ | ⟨-, -, -, he⟩⟩ <;>
      rw [he]
    · exact .inl rfl
    · exact .inl rfl
    · exact .inr ⟨⟨i, hc⟩, rfl⟩
    · exact .inl rfl
    · exact .inl rfl
  · rcases parseStep_next_cases h with ⟨-, rfl⟩ | ⟨-, -, rfl⟩
    · exact .inl rfl
    · exact .inl ((parseByte_fault _ _).trans (passByte_fault s))
  · rcases drainStep_next_cases h with ⟨-, rfl⟩ | ⟨-, -, -, rfl⟩ | ⟨-, -, rfl⟩ <;> exact .inl rfl

/-- Settles O11: `exec` and `arrive` raise with the arriving word, a micro-step with the pass's, and
nothing else raises. -/
theorem faultRecordsTheRaisingWord : Obligations.FaultRecordsTheRaisingWord := by
  intro s t r hs h ht
  have hchanged : t.fault ≠ s.fault := by simp [hs, ht]
  rcases step_next_cases h with ⟨ha, h⟩ | ⟨i, harr, h⟩ | ⟨hf, -⟩ |
    ⟨-, p, cw, payload, rest, code, hi, -, rfl⟩ | ⟨-, bits, rest, -, rfl⟩ | ⟨level, rest, -, rfl⟩ |
    ⟨rest, -, rfl⟩
  · obtain ⟨hc, rfl⟩ := (microStep_fault_cases h).resolve_left hchanged
    obtain rfl := Option.some.inj ht
    exact .inr ⟨rfl, ha, hc⟩
  · rcases harr with ⟨cw, payload, rest, hi, hd⟩ | ⟨bits, rest, -, hd⟩
    · obtain ⟨code, rfl⟩ := (exec_fault_cases h).resolve_left hchanged
      obtain rfl := Option.some.inj ht
      exact .inl ⟨_, payload, rest, commandWord_of_decode hd ▸ hi⟩
    · obtain ⟨_, _, rfl⟩ := eq_frame_of_decode_wire hd
      exact absurd (exec_frame_fault h) hchanged
  · exact absurd hs hf
  · obtain rfl := Option.some.inj ht
    exact .inl ⟨p, payload, rest, hi⟩
  · exact absurd (receiveAll_fault s.afterInput _) hchanged
  · exact absurd rfl hchanged
  · cases ht

/-! ### What no step writes, and what only grows (R32, R34, R44) -/

/-- From `s` to `t` the parameters and the level of `TX_READY` are not written, the two records of
output only grow, and at most one slot is claimed. -/
structure State.Advances (s t : State) : Prop where
  params : t.params = s.params
  txReady : t.txReady = s.txReady
  trace : s.trace <+: t.trace
  results : s.results <+: t.results
  tmrCount : t.tmrCount.val = s.tmrCount.val ∨ t.tmrCount.val = s.tmrCount.val + 1

theorem advances_of_same {s t : State} (hparams : t.params = s.params)
    (hready : t.txReady = s.txReady) (htrace : t.trace = s.trace) (hresults : t.results = s.results)
    (hcount : t.tmrCount = s.tmrCount) : s.Advances t :=
  ⟨hparams, hready, htrace ▸ List.prefix_rfl, hresults ▸ List.prefix_rfl, .inl (hcount ▸ rfl)⟩

theorem advances_emit (s : State) (e : Event) : s.Advances (s.emit e) :=
  ⟨rfl, rfl, List.prefix_append _ _, List.prefix_rfl, .inl rfl⟩

theorem advances_deliver (s : State) (v : Word) : s.Advances (s.deliver v) :=
  ⟨rfl, rfl, List.prefix_rfl, List.prefix_append _ _, .inl rfl⟩

theorem advances_receiveAll (s : State) (bytes : List Byte) : s.Advances (s.receiveAll bytes) := by
  rw [receiveAll_frame]
  exact advances_of_same rfl rfl rfl rfl rfl

theorem advances_parseByte (s : State) (b : Byte) : s.Advances (s.parseByte b) := by
  have htrace : s.trace <+: (s.parseByte b).trace := by
    rcases parseByte_trace s b with h | ⟨addr, value, h⟩ <;> rw [h]
    exact List.prefix_append _ _
  rw [parseByte_frame]
  exact ⟨rfl, rfl, htrace, List.prefix_rfl, .inl rfl⟩

/-- TMR.CREATE claims a slot if one is free, and delivers its result in either case (R170). -/
theorem advances_createTimer (s : State) (token : Half) : s.Advances (s.createTimer token) := by
  unfold State.createTimer
  split
  · exact ⟨rfl, rfl, List.prefix_rfl, List.prefix_append _ _, .inr rfl⟩
  · exact advances_deliver s _

theorem ruleOf_advances {i : Instr} {s t : State} (h : ruleOf i s = .next t) : s.Advances t := by
  cases i
  case rxRead =>
    rcases ruleOf_rxRead_next_cases h with ⟨-, rfl⟩ | ⟨-, rfl⟩
    · exact advances_of_same rfl rfl rfl rfl rfl
    · rw [passByte_frame]
      exact { advances_deliver s _ with }
  all_goals obtain rfl := Host.Outcome.next.inj h
  case tmrCreate token => exact advances_createTimer s token
  case rbIsempty | rbFree => exact advances_deliver s _
  case rbPeek => exact ⟨rfl, rfl, List.prefix_append _ _, List.prefix_append _ _, .inl rfl⟩
  case rxByte b => exact advances_receiveAll s [b]
  case frame => exact advances_receiveAll s _
  case prsByte b => exact advances_parseByte s b
  case txSend | txPacket | txByte =>
    unfold State.send
    split
    · exact advances_deliver s _
    · exact { advances_deliver s _ with }
  case tmrSetp | tmrStart | tmrStop | tmrCbret | rbAdd | rbRemove =>
    simp only [State.onSlot, State.closeWindow, State.addBytes, State.removeBytes]
    split <;> exact advances_of_same rfl rfl rfl rfl rfl
  all_goals exact advances_of_same rfl rfl rfl rfl rfl

theorem exec_advances {i : Instr} {s t : State} (h : exec i s = .next t) : s.Advances t := by
  obtain ⟨-, ⟨-, rfl⟩ | ⟨-, -, hrule⟩ | ⟨-, -, rfl⟩⟩ := exec_next_cases h
  · exact advances_of_same rfl rfl rfl rfl rfl
  · exact ruleOf_advances hrule
  · exact advances_of_same rfl rfl rfl rfl rfl

theorem scan_advances (s : State) (i : Fin (Config.timerSlots + 1)) : s.Advances (s.scan i) := by
  rcases scan_cases s i with ⟨-, he⟩ | ⟨_, ⟨-, he⟩ | ⟨-, -, he⟩ | ⟨-, -, -, he⟩ | ⟨-, -, -, he⟩⟩ <;>
    rw [he]
  · exact advances_of_same rfl rfl rfl rfl rfl
  · exact advances_of_same rfl rfl rfl rfl rfl
  · exact advances_of_same rfl rfl rfl rfl rfl
  · exact advances_of_same rfl rfl rfl rfl rfl
  · exact ⟨rfl, rfl, List.prefix_append _ _, List.prefix_rfl, .inl rfl⟩

theorem microStep_advances {s t : State} (h : microStep s = .next t) : s.Advances t := by
  rcases microStep_next_cases h with rfl | ⟨-, i, -, rfl⟩ | ⟨-, -, h⟩ | ⟨-, -, h⟩
  · exact advances_of_same rfl rfl rfl rfl rfl
  · exact scan_advances s i
  · rcases parseStep_next_cases h with ⟨-, rfl⟩ | ⟨-, -, rfl⟩
    · exact advances_of_same rfl rfl rfl rfl rfl
    · rw [passByte_frame]
      exact { advances_parseByte _ _ with }
  · rcases drainStep_next_cases h with ⟨-, rfl⟩ | ⟨-, -, -, rfl⟩ | ⟨-, -, rfl⟩
    · exact advances_of_same rfl rfl rfl rfl rfl
    · exact { advances_emit s _ with }
    · exact advances_of_same rfl rfl rfl rfl rfl

/-- A step advances, sets the level of `TX_READY`, or is reset. -/
theorem step_advances_cases {s t : State} (h : step s = .next t) :
    s.Advances t ∨
    (∃ level rest, s.inputs = .txReady level :: rest ∧
      t = { s with inputs := rest, txReady := level }) ∨
    (∃ rest, s.inputs = .reset :: rest ∧ t = s.afterInput.restart) := by
  have hs : ∀ {t : State}, s.afterInput.Advances t → s.Advances t := fun h => { h with }
  rcases step_next_cases h with ⟨-, h⟩ | ⟨i, -, h⟩ | ⟨-, -, rfl⟩ |
    ⟨-, p, cw, payload, rest, code, -, -, rfl⟩ | ⟨-, bits, rest, -, rfl⟩ |
    ⟨level, rest, hi, rfl⟩ | hreset
  · exact .inl (hs (microStep_advances h))
  · exact .inl (hs (exec_advances h))
  · exact .inl (advances_of_same rfl rfl rfl rfl rfl)
  · exact .inl (advances_of_same rfl rfl rfl rfl rfl)
  · exact .inl (hs (advances_receiveAll _ _))
  · exact .inr (.inl ⟨level, rest, hi, afterInput_of_cons hi ▸ rfl⟩)
  · exact .inr (.inr hreset)

/-- Settles O17: reset builds the block with the parameters it had, and nothing else writes them. -/
theorem parametersNeverChange : Obligations.ParametersNeverChange := by
  intro s t h
  rcases step_advances_cases h with h | ⟨level, rest, -, rfl⟩ | ⟨rest, -, rfl⟩
  · exact h.params
  · rfl
  · rfl

/-- Settles O18: short of reset the trace and the results only grow. -/
theorem outputsAreAppendOnly : Obligations.OutputsAreAppendOnly := by
  intro s t h
  rcases step_advances_cases h with h | ⟨level, rest, -, rfl⟩ | ⟨rest, hi, -⟩
  · exact .inl ⟨h.trace, h.results⟩
  · exact .inl ⟨List.prefix_rfl, List.prefix_rfl⟩
  · exact .inr ⟨rest, hi⟩

theorem step_of_txReady {s : State} {level : Bool} {rest : List Input}
    (h : s.inputs = .txReady level :: rest) :
    step s = .next { s with inputs := rest, txReady := level } := by
  rw [step, oneStep, h]
  rfl

/-- Settles O19: only the input `txReady` writes the level, and reset takes it over. -/
theorem onlyTheUartDrivesTxReady : Obligations.OnlyTheUartDrivesTxReady := by
  refine fun s => ⟨fun level rest => step_of_txReady, fun t h => ?_, fun i t h => (exec_advances h).txReady⟩
  rcases step_advances_cases h with h | ⟨level, rest, hi, -⟩ | ⟨rest, -, rfl⟩
  · exact .inl h.txReady
  · exact .inr ⟨level, rest, hi⟩
  · exact .inl rfl

/-- Settles O20: TMR.CREATE is the one command that writes `tmrCount`, and it claims one slot. -/
theorem claimedSlotsAreNeverFreed : Obligations.ClaimedSlotsAreNeverFreed := by
  intro s t h
  rcases step_advances_cases h with h | ⟨level, rest, -, rfl⟩ | ⟨rest, hi, -⟩
  · exact .inl h.tmrCount
  · exact .inl (.inl rfl)
  · exact .inr ⟨rest, hi⟩

/-! ### The table of R50 -/

theorem resetWith_timer (p : Params) (ready : Bool) (j : Fin Config.timerSlots) :
    (State.resetWith p ready).tmr[j.val]'j.isLt = Timer.reset :=
  Vector.getElem_replicate _

/-- Settles O12: the fields are `State.resetWith`'s, each slot is `Timer.reset`, and the empty memory
reads 0 everywhere. -/
theorem resetLeavesEveryFieldAtItsValue : Obligations.ResetLeavesEveryFieldAtItsValue :=
  ⟨rfl, resetWith_timer _ _, rfl, rfl, rfl, rfl, fun _ => ⟨rfl, rfl⟩, rfl, rfl, rfl, rfl, rfl, rfl⟩

end Sys2Proof.Machine

/-! ## Memory (spec/20_memory.md): which context writes which state (R81, R304) -/

namespace Sys2Proof.Machine

open Sys2Proof

/-! ### The families of the commands (R81)

Four parts of the state that each belong to one family of commands, and the family of each command. -/

/-- A part of the state that one family of commands writes (R81). -/
inductive Region where
  | timers
  | ring
  | staging
  | parser

/-- The part of the state each command's family writes; none for one that only answers, or only moves
`coop`. -/
@[simp] def regionOf : Instr → Option Region
  | .tmrCreate _ | .tmrSetp _ _ | .tmrStart _ _ | .tmrStop _ | .tmrTick => some .timers
  | .rbInit | .rbAdd _ _ | .rbRemove _ | .txSend _ _ | .txPacket _ _ | .txByte _ => some .ring
  | .rxByte _ | .rxRead | .frame _ _ => some .staging
  | .prsByte _ => some .parser
  | .tmrDispatch | .tmrCbret | .rbIsempty | .rbFree | .rbPeek | .rxParse | .txDrain => none

/-- `t` holds in a region what `s` holds there. -/
@[simp] def State.SameOn (s t : State) : Region → Prop
  | .timers => t.tmr = s.tmr ∧ t.tmrCount = s.tmrCount
  | .ring => t.txMem = s.txMem ∧ t.txRd = s.txRd ∧ t.txCnt = s.txCnt
  | .staging => t.rxMem = s.rxMem ∧ t.rxWr = s.rxWr ∧ t.rxRd = s.rxRd
  | .parser => t.prsState = s.prsState ∧ t.prsId = s.prsId ∧ t.prsValue = s.prsValue

/-- A rule writes no region but its own family's. -/
theorem ruleOf_sameOn {i : Instr} {s t : State} (h : ruleOf i s = .next t) {r : Region}
    (hr : regionOf i ≠ some r) : s.SameOn t r := by
  cases i
  case rxRead =>
    rcases ruleOf_rxRead_next_cases h with ⟨-, rfl⟩ | ⟨-, rfl⟩
    · cases r <;> simp
    · rw [passByte_frame]
      cases r <;> simp at hr ⊢
  all_goals obtain rfl := Host.Outcome.next.inj h
  case tmrCreate | tmrSetp | tmrStart | tmrStop | tmrCbret | rbAdd | rbRemove | txSend | txPacket |
      txByte =>
    simp only [State.createTimer, State.onSlot, State.closeWindow, State.addBytes, State.removeBytes,
      State.send]
    split <;> cases r <;> simp at hr ⊢
  case rxByte b =>
    rw [receive_frame]
    cases r <;> simp at hr ⊢
  case frame =>
    rw [receiveAll_frame]
    cases r <;> simp at hr ⊢
  case prsByte b =>
    rw [parseByte_frame]
    cases r <;> simp at hr ⊢
  all_goals cases r <;> simp at hr ⊢

theorem regionOf_of_changed {i : Instr} {s t : State} (h : ruleOf i s = .next t) {r : Region}
    (hc : ¬ s.SameOn t r) : regionOf i = some r :=
  not_imp_comm.mp (ruleOf_sameOn h) hc

theorem regionOf_eq_timers {i : Instr} (h : regionOf i = some .timers) :
    (∃ k, i = .tmrCreate k) ∨ (∃ a p, i = .tmrSetp a p) ∨ (∃ a r, i = .tmrStart a r) ∨
      (∃ a, i = .tmrStop a) ∨ i = .tmrTick := by
  cases i <;> simp at h ⊢

theorem regionOf_eq_ring {i : Instr} (h : regionOf i = some .ring) :
    i = .rbInit ∨ (∃ n p, i = .rbAdd n p) ∨ (∃ n, i = .rbRemove n) ∨
      (∃ n p, i = .txSend n p) ∨ (∃ a v, i = .txPacket a v) ∨ ∃ b, i = .txByte b := by
  cases i <;> simp at h ⊢

theorem regionOf_eq_parser {i : Instr} (h : regionOf i = some .parser) : ∃ b, i = .prsByte b := by
  cases i <;> simp at h ⊢

/-- In cooperative context RX.READ alone is of the staging family. -/
theorem eq_rxRead_of_staging {i : Instr} (hp : portOf i = .coop) (h : regionOf i = some .staging) :
    i = .rxRead := by
  cases i <;> simp [portOf] at h hp ⊢

/-! ### The commands (R304) -/

/-- A meaning that leaves no fault recorded has run its rule. -/
theorem ruleOf_of_exec_without_fault {i : Instr} {s t : State} (h : exec i s = .next t)
    (ht : t.fault = none) : ruleOf i s = .next t := by
  obtain ⟨-, ⟨hf, rfl⟩ | ⟨-, -, hrule⟩ | ⟨-, -, rfl⟩⟩ := exec_next_cases h
  · exact absurd ht hf
  · exact hrule
  · cases ht

theorem tick_frame (t : Timer) : t.tick = { t with elapsed := t.tick.elapsed } := by
  unfold Timer.tick; split <;> rfl

theorem fired_frame (t : Timer) :
    t.fired = { t with elapsed := t.fired.elapsed, enabled := t.fired.enabled } := by
  unfold Timer.fired; split <;> rfl

/-- What an interrupt event writes: TMR.TICK `elapsed`, and a received byte `RX` and the write cursor. -/
theorem ruleOf_irq_frame {i : Instr} {s t : State} (h : ruleOf i s = .next t)
    (hp : portOf i = .irq) :
    t = { s with tmr := t.tmr, rxMem := t.rxMem, rxWr := t.rxWr } ∧
    ∀ j : Fin Config.timerSlots, t.tmr[j.val]'j.isLt =
      { s.tmr[j.val]'j.isLt with elapsed := (t.tmr[j.val]'j.isLt).elapsed } := by
  cases i <;> cases hp <;> obtain rfl := Host.Outcome.next.inj h
  case tmrTick => exact ⟨rfl, fun j => by simpa using tick_frame _⟩
  case rxByte b => rw [receive_frame]; exact ⟨rfl, fun _ => rfl⟩
  case frame => rw [receiveAll_frame]; exact ⟨rfl, fun _ => rfl⟩

theorem passByte_passesOneByte (s : State) : PassesOneByte s s.passByte := by
  by_cases hl : s.rxRd + 1 = s.rxWr
  · rw [passByte_last hl]
    exact .inr ⟨hl, rfl, rfl⟩
  · rw [passByte_more hl]
    exact .inl ⟨rfl, rfl⟩

/-- RX.READ without a fault passes one byte, and leaves `RX` (R213). -/
theorem ruleOf_rxRead_frame {s t : State} (h : ruleOf .rxRead s = .next t) (ht : t.fault = none) :
    PassesOneByte s t ∧ t.rxMem = s.rxMem := by
  rcases ruleOf_rxRead_next_cases h with ⟨-, rfl⟩ | ⟨-, rfl⟩
  · cases ht
  · exact ⟨passByte_passesOneByte s, by rw [passByte_frame]; rfl⟩

/-- Of the commands of the cooperative port only RX.READ is of the staging family, and it leaves `RX`. -/
theorem ruleOf_coop_rxMem {i : Instr} {s t : State} (h : ruleOf i s = .next t) (ht : t.fault = none)
    (hp : portOf i = .coop) : t.rxMem = s.rxMem := by
  by_cases hr : regionOf i = some .staging
  · obtain rfl := eq_rxRead_of_staging hp hr
    exact (ruleOf_rxRead_frame h ht).2
  · exact (ruleOf_sameOn h hr).1

/-! ### The micro-steps (R182, R221, R257) -/

theorem scan_frame (s : State) (i : Fin (Config.timerSlots + 1)) :
    s.scan i = { s with
      tmr := (s.scan i).tmr
      coop := (s.scan i).coop
      fault := (s.scan i).fault
      trace := (s.scan i).trace } := by
  rcases scan_cases s i with ⟨-, he⟩ | ⟨_, ⟨-, he⟩ | ⟨-, -, he⟩ | ⟨-, -, -, he⟩ | ⟨-, -, -, he⟩⟩ <;>
    rw [he]
  all_goals rfl

/-- A pass writes `elapsed` and `enabled` of a slot, when it fires. -/
theorem scan_slot (s : State) (i : Fin (Config.timerSlots + 1)) (j : Fin Config.timerSlots) :
    (s.scan i).tmr[j.val]'j.isLt =
      { s.tmr[j.val]'j.isLt with
        elapsed := ((s.scan i).tmr[j.val]'j.isLt).elapsed
        enabled := ((s.scan i).tmr[j.val]'j.isLt).enabled } := by
  rcases scan_cases s i with ⟨-, he⟩ | ⟨hi, ⟨-, he⟩ | ⟨-, -, he⟩ | ⟨-, -, -, he⟩ | ⟨-, -, -, he⟩⟩ <;>
    simp only [he, State.raise_tmr]
  by_cases hij : i.val = j.val
  · simpa [hij] using fired_frame _
  · simp [Vector.getElem_set_ne _ _ hij]

/-- RX.PARSE writes the parser, and the staging cursors by passing one byte, if at all. -/
theorem parseStep_frame {s t : State} (h : s.parseStep = .next t) :
    t = { s with
      rxWr := t.rxWr, rxRd := t.rxRd
      prsState := t.prsState, prsId := t.prsId, prsValue := t.prsValue
      coop := t.coop, trace := t.trace } ∧
    ((t.rxWr = s.rxWr ∧ t.rxRd = s.rxRd) ∨ PassesOneByte s t) := by
  rcases parseStep_next_cases h with ⟨-, rfl⟩ | ⟨-, -, rfl⟩
  · exact ⟨rfl, .inl ⟨rfl, rfl⟩⟩
  · rw [parseByte_frame]
    refine ⟨?_, .inr (passByte_passesOneByte s)⟩
    rw [passByte_frame]

theorem drainStep_frame {s t : State} (h : s.drainStep = .next t) :
    t = { s with txRd := t.txRd, txCnt := t.txCnt, coop := t.coop, trace := t.trace } := by
  rcases drainStep_next_cases h with ⟨-, rfl⟩ | ⟨-, -, -, rfl⟩ | ⟨-, -, rfl⟩ <;> rfl

/-- Settles O21: a command without a fault runs its rule, which writes its own family's region only; the
frames of the four kinds of micro-step give the rest. -/
theorem eachContextWritesItsOwnState : Obligations.EachContextWritesItsOwnState := by
  refine ⟨fun i s t h ht => ?_, fun s t h => ?_⟩
  · replace h := ruleOf_of_exec_without_fault h ht
    refine ⟨ruleOf_irq_frame h, ruleOf_coop_rxMem h ht, fun hp hne => ?_, ?_, fun hne => ?_,
      fun hc => ?_, fun hc => ?_⟩
    · exact (ruleOf_sameOn h (mt (eq_rxRead_of_staging hp) hne)).2
    · rintro rfl
      exact (ruleOf_rxRead_frame h ht).1
    · exact ruleOf_sameOn h fun hr => (regionOf_eq_parser hr).elim hne
    · exact regionOf_eq_ring (regionOf_of_changed h fun ⟨h1, h2, h3⟩ => by simp [h1, h2, h3] at hc)
    · exact regionOf_eq_timers (regionOf_of_changed h fun ⟨h1, h2⟩ => by simp [h1, h2] at hc)
  · rcases microStep_next_cases h with rfl | ⟨-, k, hc, rfl⟩ | ⟨-, hc, h⟩ | ⟨-, hc, h⟩
    · exact ⟨rfl, rfl, rfl, rfl, .inl ⟨rfl, rfl⟩, by simp, by simp, by simp, fun _ => rfl⟩
    · have hslots := scan_slot s k
      rw [scan_frame] at hslots ⊢
      exact ⟨rfl, rfl, rfl, rfl, .inl ⟨rfl, rfl⟩, by simp, by simp, fun _ => ⟨k, hc⟩, hslots⟩
    · obtain ⟨hframe, hpass⟩ := parseStep_frame h
      rw [hframe] at hpass ⊢
      exact ⟨rfl, rfl, rfl, rfl, hpass.imp_right fun hp => ⟨hc, hp⟩, fun _ => hc, by simp, by simp,
        fun _ => rfl⟩
    · rw [drainStep_frame h]
      exact ⟨rfl, rfl, rfl, rfl, .inl ⟨rfl, rfl⟩, by simp, fun _ => hc, by simp, fun _ => rfl⟩

end Sys2Proof.Machine

/-! ## Encoding (spec/30_encoding.md): the opcode table and its packets (R103 to R105, R120), what a step
does with an arriving word or frame (R106), and `tmr.arm` (R112) -/

namespace Sys2Proof.Machine

open Sys2Proof

/-! ### Decoding an encoded instruction (R104, R120) -/

/-- Settles O2: one round trip per row of the opcode table. -/
theorem decodeOfEncodeIsTheInstruction : Obligations.DecodeOfEncodeIsTheInstruction := fun i =>
  match i with
  | .tmrCreate token => Laws.RoundTrip.tmrCreate token
  | .tmrSetp slot period => Laws.RoundTrip.tmrSetp slot period
  | .tmrStart slot ar => Laws.RoundTrip.tmrStart slot ar
  | .tmrStop slot => Laws.RoundTrip.tmrStop slot
  | .tmrTick => Laws.RoundTrip.tmrTick
  | .tmrDispatch => Laws.RoundTrip.tmrDispatch
  | .tmrCbret => Laws.RoundTrip.tmrCbret
  | .rbInit => Laws.RoundTrip.rbInit
  | .rbIsempty => Laws.RoundTrip.rbIsempty
  | .rbFree => Laws.RoundTrip.rbFree
  | .rbAdd length payload => Laws.RoundTrip.rbAdd length payload
  | .rbPeek => Laws.RoundTrip.rbPeek
  | .rbRemove count => Laws.RoundTrip.rbRemove count
  | .rxByte b => Laws.RoundTrip.rxByte b
  | .rxRead => Laws.RoundTrip.rxRead
  | .prsByte b => Laws.RoundTrip.prsByte b
  | .rxParse => Laws.RoundTrip.rxParse
  | .txSend length payload => Laws.RoundTrip.txSend length payload
  | .txPacket parameterId value => Laws.RoundTrip.txPacket parameterId value
  | .txByte b => Laws.RoundTrip.txByte b
  | .txDrain => Laws.RoundTrip.txDrain
  | .frame parameterId value => Laws.RoundTrip.frame parameterId value

/-- Settles O1: the decoder evaluated on each of the seven words. -/
theorem sampleWordsDecode : Obligations.SampleWordsDecode := by
  refine ⟨?_, ?_, ?_, ?_, ?_, ?_, ?_⟩ <;> decide

/-! ### Encoding a decoded packet (R104, R105, R120) -/

/-- Only RB.ADD and TX.SEND call for payload bytes (R103, R107). -/
theorem payloadLength_of_ne {cw : Word} (h : (opOf cw).toNat ≠ 0x13) (h' : (opOf cw).toNat ≠ 0x28) :
    payloadLength cw = 0 :=
  cmd32_fields cw ▸ payloadLength_cmd32_of_ne (ne_of_apply_ne BitVec.toNat h)
    (ne_of_apply_ne BitVec.toNat h') _ _

theorem payloadLength_of_eq {cw : Word} (h : (opOf cw).toNat = 0x13 ∨ (opOf cw).toNat = 0x28) :
    payloadLength cw = (immOf cw).toNat :=
  if_pos (h.imp (BitVec.eq_of_toNat_eq ·) (BitVec.eq_of_toNat_eq ·))

/-- A word and its payload that the opcode map reads are the packet of the instruction read. -/
theorem encode_of_decodeCommand {cw : Word} {payload : List Byte} {i : Instr}
    (hl : payload.length = payloadLength cw) (h : decodeCommand cw payload = .ok i) :
    encode i = .command cw payload ∧ i.wellFormed = true := by
  have hcw := commandWord_of_decodeCommand h
  unfold decodeCommand at h
  split at h
  case h_22 => cases h -- no row has this opcode
  case h_11 hop | h_18 hop => -- RB.ADD and TX.SEND: the payload has the length that `IMM` says
    obtain ⟨-, rfl⟩ := ifReserved_eq_ok h
    rw [payloadLength_of_eq (by simp [hop])] at hl
    exact ⟨congrArg (Packet.command · payload) hcw, beq_iff_eq.mpr hl⟩
  all_goals
    next hop =>
    obtain ⟨-, rfl⟩ := ifReserved_eq_ok h
    rw [payloadLength_of_ne (by simp [hop]) (by simp [hop]), List.length_eq_zero_iff] at hl
    exact ⟨hl ▸ congrArg (Packet.command · []) hcw, rfl⟩

/-- The 40 bits of a frame are the frame's packet. -/
theorem encode_of_decodeWire {bits : BitVec 40} {i : Instr} (h : decodeWire bits = .ok i) :
    encode i = .wire bits ∧ i.wellFormed = true := by
  unfold decodeWire at h
  split at h
  · next hends =>
    obtain rfl := Except.ok.inj h
    refine ⟨congrArg Packet.wire ?_, rfl⟩
    rw [frameBits, highByte_joinBytes, lowByte_joinBytes, ← hends.1, ← hends.2, append_wireBytes]
  · cases h

/-- Settles O3: the command words and the wire frame apart. -/
theorem decodedPacketIsTheEncoding : Obligations.DecodedPacketIsTheEncoding := by
  intro p i h
  cases p with
  | wire bits => exact encode_of_decodeWire h
  | command cw payload =>
    unfold decode at h
    dsimp only at h
    split at h
    · next hl => exact encode_of_decodeCommand hl h
    · cases h

/-! ### The rows of the opcode table (R104, R105) -/

theorem cmd32_and_cmd32 (op op' a a' : Byte) (imm imm' : Half) :
    cmd32 op a imm &&& cmd32 op' a' imm' = cmd32 (op &&& op') (a &&& a') (imm &&& imm') :=
  BitVec.and_append.trans (congrArg (· ++ (imm &&& imm')) BitVec.and_append)

/-- A word with a row's opcode and nothing where that row's mask asks for 0 fits the row. -/
theorem fits_of_row {op maskA a : Byte} {maskImm imm : Half}
    (hrow : (cmd32 op 0 0, cmd32 0xFF maskA maskImm) ∈ commandRows)
    (ha : a &&& maskA = 0) (himm : imm &&& maskImm = 0) :
    ∃ row ∈ commandRows, cmd32 op a imm &&& row.2 = row.1 := by
  refine ⟨_, hrow, ?_⟩
  rw [cmd32_and_cmd32, ha, himm, show op &&& 0xFF = op from BitVec.and_allOnes]

/-- The word of every command fits its row; the rows' masks are one for each choice of operands. -/
theorem fits_of_encode {cw : Word} {payload : List Byte} {i : Instr}
    (h : encode i = .command cw payload) : ∃ row ∈ commandRows, cw &&& row.2 = row.1 := by
  cases i
  case frame => cases h
  all_goals obtain ⟨rfl, -⟩ := Packet.command.inj h
  case tmrSetp | txPacket => -- both fields
    exact fits_of_row (maskA := 0) (maskImm := 0) (by decide) (by simp) (by simp)
  case tmrCreate | rbAdd | rbRemove | txSend => -- `IMM` alone
    exact fits_of_row (maskA := 0xFF) (maskImm := 0) (by decide) (by simp) (by simp)
  case tmrStop | rxByte | prsByte | txByte => -- `A` alone
    exact fits_of_row (maskA := 0) (maskImm := 0xFFFF) (by decide) (by simp) (by simp)
  case tmrStart slot ar => -- `A` and `IMM[0]`
    exact fits_of_row (maskA := 0) (maskImm := 0xFFFE) (by decide) (by simp) (by cases ar <;> rfl)
  all_goals -- no operand
    exact fits_of_row (maskA := 0xFF) (maskImm := 0xFFFF) (by decide) (by simp) (by simp)

/-- The opcode map reads nothing from an illegal word (R105). -/
theorem decode_ne_ok_of_illegalWord {cw : Word} (h : IllegalWord cw) (payload : List Byte) (i : Instr) :
    decode (.command cw payload) ≠ .ok i := fun hd =>
  have ⟨row, hrow, hfits⟩ := fits_of_encode (decodedPacketIsTheEncoding _ _ hd).1
  h row hrow hfits

/-! ### What a step does with what arrives (R103, R106) -/

theorem step_of_cons {s : State} {x : Input} {rest : List Input} (h : s.inputs = x :: rest) :
    step s = takeInput x { s with inputs := rest } := by
  rw [step, oneStep, h]

theorem arrive_of_length_ne {cw : Word} {payload : List Byte} (h : payload.length ≠ payloadLength cw)
    (p : Port) (s : State) : arrive p cw payload s = .refused .payloadMismatch := by
  rw [arrive, (decode_eq_payloadMismatch_iff cw payload).mpr h]

/-- A pair of the right lengths that is no instruction is an illegal word (R105, R106). -/
theorem arrive_of_no_instr {cw : Word} {payload : List Byte}
    (hl : payload.length = payloadLength cw) (hd : ∀ i, decode (.command cw payload) ≠ .ok i)
    (p : Port) (s : State) (hf : s.fault = none) : arrive p cw payload s = .next (s.raise .illegal cw) := by
  unfold arrive
  split
  · next he => exact absurd hl ((decode_eq_payloadMismatch_iff cw payload).mp he)
  · rw [if_neg (by simpa using hf)]
  · next i hi => exact absurd hi (hd i)

/-- Settles O4: a word that decodes fits a row, so an illegal one does not decode. -/
theorem illegalWordRaisesIllegalOnly : Obligations.IllegalWordRaisesIllegalOnly := by
  intro s p cw payload rest hf hi hill hl
  rw [step_of_cons hi]
  exact arrive_of_no_instr hl (decode_ne_ok_of_illegalWord hill payload) p { s with inputs := rest } hf

/-- Settles O5: the list's length is the decoder's first check. -/
theorem illFormedPairIsRefused : Obligations.IllFormedPairIsRefused := by
  intro s p cw payload rest hi hl
  rw [step_of_cons hi]
  exact arrive_of_length_ne hl p _

/-- The input that carries an instruction's packet runs the instruction's meaning. -/
theorem takeInput_inputOfPacket {p : Packet} {i : Instr} (h : decode p = .ok i) (s : State) :
    takeInput (inputOfPacket p) s = exec i s := by
  cases p with
  | command cw payload => simp [inputOfPacket, takeInput, arrive, h]
  | wire bits => simp [inputOfPacket, takeInput, arriveWire, h]

/-- Settles O6: the packet of the instruction decodes to it. -/
theorem stepRunsTheArrivingInstruction : Obligations.StepRunsTheArrivingInstruction := by
  intro s i rest hw hi
  rw [step_of_cons hi, takeInput_inputOfPacket (decodeOfEncodeIsTheInstruction i hw)]

/-! ### Bytes on the wire are received one by one (R120, R210, R305) -/

theorem exec_rxByte {s : State} (hf : s.fault = none) (b : Byte) :
    exec (.rxByte b) s = .next (s.receive b) := exec_admitted rfl hf rfl

theorem exec_frame {s : State} (hf : s.fault = none) (parameterId : Byte) (value : Half) :
    exec (.frame parameterId value) s = .next (s.receiveAll (frameBytes parameterId value)) :=
  exec_admitted rfl hf rfl

theorem execAll_of_next {i : Instr} {rest : List Instr} {s t : State} (h : exec i s = .next t) :
    execAll (i :: rest) s = execAll rest t := by
  rw [execAll, h]; rfl

/-- RX.BYTE for each byte of a list is the reception of the list. -/
theorem execAll_rxByte (s : State) (hf : s.fault = none) (bytes : List Byte) :
    execAll (bytes.map Instr.rxByte) s = some (s.receiveAll bytes) := by
  induction bytes generalizing s with
  | nil => rfl
  | cons b rest ih =>
    rw [List.map_cons, execAll_of_next (exec_rxByte hf b)]
    exact ih (s.receive b) ((receiveAll_fault s [b]).trans hf)

/-- With room for all, the received bytes are stored from the write cursor on. -/
theorem receiveAll_of_room {s : State} {bytes : List Byte} (h : s.rxWr + bytes.length ≤ s.rxCap) :
    s.receiveAll bytes = { s with
      rxMem := s.rxMem.writeRing s.rxCap s.rxWr bytes, rxWr := s.rxWr + bytes.length } := by
  induction bytes generalizing s with
  | nil => rfl
  | cons b rest ih =>
    rw [List.length_cons] at h
    have hlt : s.rxWr < s.rxCap := by omega
    rw [State.receiveAll, receive_stored hlt, ih (by simp only [State.rxCap] at *; omega),
      Memory.writeRing, Nat.mod_eq_of_lt hlt, List.length_cons, Nat.add_comm rest.length, ← Nat.add_assoc]
    rfl

/-- Each stored byte reads back at its place. -/
theorem receiveAll_read_stored {s : State} (hm : s.rxMem.wf) {bytes : List Byte}
    (h : s.rxWr + bytes.length ≤ s.rxCap) {k : Nat} (hk : k < bytes.length) :
    (s.receiveAll bytes).rxMem.read (s.rxWr + k) = bytes[k] := by
  have hread := Memory.read_writeRing_at hm (by omega : bytes.length ≤ s.rxCap) hk (at_ := s.rxWr)
  rw [Nat.mod_eq_of_lt (by omega)] at hread
  rwa [receiveAll_of_room h]

/-- The other places read as before. -/
theorem receiveAll_read_other {s : State} {bytes : List Byte} (h : s.rxWr + bytes.length ≤ s.rxCap)
    {a : Nat} (ha : a < s.rxWr ∨ s.rxWr + bytes.length ≤ a) :
    (s.receiveAll bytes).rxMem.read a = s.rxMem.read a := by
  rw [receiveAll_of_room h]
  refine Memory.read_writeRing_other fun k hk => ?_
  rw [Nat.mod_eq_of_lt (by omega)]
  omega

/-- Settles O52: both are the reception of the frame's five bytes. -/
theorem frameArrivesAsFiveBytes : Obligations.FrameArrivesAsFiveBytes := by
  intro id value s hf
  refine ⟨_, exec_frame hf id value, execAll_rxByte s hf _, fun hm hroom => ?_⟩
  have stored {k : Nat} (hk : k < 5) := receiveAll_read_stored hm (bytes := frameBytes id value) hroom hk
  refine ⟨?_, stored (k := 0) (by decide), stored (k := 1) (by decide), stored (k := 2) (by decide),
    stored (k := 3) (by decide), stored (k := 4) (by decide), fun a =>
      receiveAll_read_other (bytes := frameBytes id value) hroom⟩
  rw [receiveAll_of_room hroom]
  rfl

/-- Five bytes on the wire are received the same whether or not they are a frame (R122). -/
theorem arriveWire_eq (s : State) (hf : s.fault = none) (bits : BitVec 40) :
    arriveWire bits s = .next (s.receiveAll (wireBytes bits)) := by
  unfold arriveWire
  split
  · next i hd =>
    obtain ⟨parameterId, value, rfl⟩ := eq_frame_of_decode_wire hd
    obtain rfl := Packet.wire.inj (decodedPacketIsTheEncoding _ _ hd).1
    rw [exec_frame hf, wireBytes_frameBits]
  · rw [if_neg (by simpa using hf)]

/-- Settles O53: the five bytes of the pattern are what the step receives. -/
theorem anyFiveWireBytesAreReceived : Obligations.AnyFiveWireBytesAreReceived := by
  intro bits s rest hf hi
  refine ⟨_, ?_, execAll_rxByte { s with inputs := rest } hf (wireBytes bits)⟩
  rw [step_of_cons hi]
  exact arriveWire_eq { s with inputs := rest } hf bits

/-! ### A frame from the wire to storage (R121, R216 to R221) -/

/-- Received bytes that find room go behind the staged ones. -/
theorem rxContents_receiveAll {s : State} (hs : s.Inv) {bytes : List Byte}
    (h : s.rxWr + bytes.length ≤ s.rxCap) :
    (s.receiveAll bytes).rxContents = s.rxContents ++ bytes := by
  induction bytes generalizing s with
  | nil => exact (List.append_nil _).symm
  | cons b rest ih =>
    rw [List.length_cons] at h
    have hlt : s.rxWr < s.rxCap := by omega
    have hroom : (s.receive b).rxWr + rest.length ≤ (s.receive b).rxCap := by
      rw [receive_rxCap, receive_stored hlt]
      show s.rxWr + 1 + rest.length ≤ s.rxCap
      omega
    rw [State.receiveAll, ih (inv_receive hs b) hroom, rxContents_receive hs.staging hs.rxMemory.1,
      if_pos hlt, List.append_assoc, List.singleton_append]

/-- The output of a good frame: its value written to its id's address, or nothing for an unknown id
(R220). -/
def storeEvents (m : ParamMap) (id : Byte) (value : Half) : List Event :=
  ((lookupAddr m id).map (Event.storeWrite · value)).toList

/-- The end byte ends a good frame with its output (R220). -/
theorem endFrame_endByte (s : State) : s.endFrame Config.endByte =
    { s with prsState := .seeking, trace := s.trace ++ storeEvents s.params.paramMap s.prsId s.prsValue } := by
  unfold State.endFrame storeEvents
  rw [if_pos rfl]
  cases lookupAddr s.params.paramMap s.prsId
  · simp
  · rfl

/-- The value the parser assembles in states 2 and 3 is the two bytes side by side (R121, R218, R219). -/
theorem shiftLeft_add_eq_joinBytes (hi lo : Byte) :
    hi.setWidth 16 <<< 8 + lo.setWidth 16 = joinBytes hi lo := by
  rw [BitVec.add_eq_or_of_and_eq_zero, joinBytes, BitVec.append_def, BitVec.shiftLeftZeroExtend_eq,
    BitVec.setWidth'_eq]
  ext k hk
  by_cases h8 : k < 8
  · simp [h8]
  · simp [h8, BitVec.getLsbD_of_ge lo k (by omega)]

/-- From state 0 the five bytes of any frame leave its id and its value in the parser's registers, state
0 again, and the frame's output (R121, R216 to R220). -/
theorem foldl_parseByte_frame {s : State} (h : s.prsState = .seeking) (id hi lo : Byte) :
    [Config.startByte, id, hi, lo, Config.endByte].foldl State.parseByte s = { s with
      prsId := id
      prsValue := joinBytes hi lo
      trace := s.trace ++ storeEvents s.params.paramMap id (joinBytes hi lo) } := by
  have hstart : s.parseByte Config.startByte = { s with prsState := .expectId } := by
    simp [State.parseByte, h]
  rw [List.foldl_cons, hstart, ← shiftLeft_add_eq_joinBytes]
  refine (endFrame_endByte _).trans ?_
  rw [← h]
  rfl

theorem foldl_parseByte_with_cursors (bytes : List Byte) (s : State) (rd wr : Nat) (c : Coop) :
    bytes.foldl State.parseByte { s with rxRd := rd, rxWr := wr, coop := c } =
      { bytes.foldl State.parseByte s with rxRd := rd, rxWr := wr, coop := c } := by
  induction bytes generalizing s with
  | nil => rfl
  | cons b rest ih => rw [List.foldl_cons, parseByte_with_cursors, ih, List.foldl_cons]

/-- One micro-step of RX.PARSE with a byte staged passes it to the parser (R221). -/
theorem step_parse_of_staged {s : State} (hf : s.fault = none) (hs : s.StagingOk) (hc : s.coop = .parse)
    (hi : s.inputs = []) (hne : s.rxRd ≠ s.rxWr) :
    step s = .next (s.passByte.parseByte (s.rxMem.read s.rxRd)) := by
  rw [step_of_no_input hi, microStep_parse hf hc, State.parseStep, if_neg hne, popRx_of_stagingOk hs hne]

/-- The parser's registers are no part of what is staged. -/
theorem rxContents_parseByte (s : State) (b : Byte) : (s.parseByte b).rxContents = s.rxContents := by
  rw [parseByte_frame]
  rfl

/-- Passing a byte and parsing it keeps the fault record, the busy state and the inputs. -/
theorem parseByte_passByte_same (s : State) (b : Byte) :
    (s.passByte.parseByte b).fault = s.fault ∧ (s.passByte.parseByte b).coop = s.coop ∧
      (s.passByte.parseByte b).inputs = s.inputs := by
  rw [parseByte_frame, passByte_frame]
  exact ⟨rfl, rfl, rfl⟩

/-- An RX.PARSE that nothing interrupts feeds every staged byte to the parser, in order, and ends one
micro-step later with both cursors at 0 (R214, R221). -/
theorem runSteps_parse {s : State} {bytes : List Byte} (hf : s.fault = none) (hs : s.Inv)
    (hc : s.coop = .parse) (hi : s.inputs = []) (hb : s.rxContents = bytes) :
    runSteps (bytes.length + 1) s = some
      { bytes.foldl State.parseByte s with rxRd := 0, rxWr := 0, coop := .idle } := by
  have hlen := hb ▸ rxContents_length s
  induction bytes generalizing s with
  | nil =>
    obtain ⟨hle, -, hcursors⟩ := hs.staging
    obtain ⟨hrd, hwr⟩ : s.rxRd = 0 ∧ s.rxWr = 0 := by
      rw [List.length_nil] at hlen
      omega
    have hstep : step s = .next { s with coop := .idle } := by
      rw [step_of_no_input hi, microStep_parse hf hc, State.parseStep, if_pos (hrd.trans hwr.symm)]
    rw [List.length_nil, runSteps_of_next hstep, runSteps, List.foldl_nil, ← hrd, hrd, ← hwr]
  | cons b rest ih =>
    have hne : s.rxRd ≠ s.rxWr := by
      rw [List.length_cons] at hlen
      omega
    obtain ⟨rfl, hrest⟩ := List.cons.inj ((rxContents_passByte hs.staging hne).symm.trans hb)
    rw [← rxContents_parseByte _ (s.rxMem.read s.rxRd)] at hrest
    obtain ⟨hf', hc', hi'⟩ := parseByte_passByte_same s (s.rxMem.read s.rxRd)
    rw [List.length_cons, runSteps_of_next (step_parse_of_staged hf hs.staging hc hi hne),
      ih (hf'.trans hf) (inv_parseByte (inv_passByte hs hne) _) (hc'.trans hc) (hi'.trans hi) hrest
        (hrest ▸ rxContents_length _),
      ← List.foldl_cons, ← foldl_parseByte_with_cursors, ← foldl_parseByte_with_cursors, passByte_frame]

/-- From state 0, with the five bytes of a frame staged, RX.PARSE ends with the frame's output. -/
theorem runSteps_parse_frame {s : State} {id : Byte} {value : Half} (hf : s.fault = none) (hs : s.Inv)
    (hc : s.coop = .parse) (hi : s.inputs = []) (hseek : s.prsState = .seeking)
    (hb : s.rxContents = frameBytes id value) :
    runSteps 6 s = some { s with
      rxRd := 0, rxWr := 0, coop := .idle, prsId := id, prsValue := value
      trace := s.trace ++ storeEvents s.params.paramMap id value } := by
  refine (runSteps_parse hf hs hc hi hb).trans ?_
  rw [frameBytes, foldl_parseByte_frame hseek, joinBytes_high_low]

/-- The 40-bit pattern of R120 with the value as one field. -/
theorem append_eq_frameBits (id : Byte) (value : Half) :
    0x30#8 ++ id ++ value ++ 0x35#8 = frameBits id value := by
  apply BitVec.eq_of_getLsbD_eq
  intro k hk
  simp only [frameBits, highByte, lowByte, BitVec.getLsbD_append, BitVec.getLsbD_extractLsb']
  interval_cases k <;> rfl

/-- An idle BSC begins an RX.PARSE (R221). -/
theorem exec_rxParse {s : State} (h : s.Idle) : exec .rxParse s = .next { s with coop := .parse } :=
  exec_admitted rfl h.1 (h.admits true)

/-- The word of RX.PARSE, arriving alone at an idle BSC, begins it. -/
theorem step_rxParse {s : State} (h : s.Idle) (hi : s.inputs = [.word .coop 0x23000000 []]) :
    step s = .next { s with inputs := [], coop := .parse } := by
  rw [step_of_cons hi]
  exact (takeInput_inputOfPacket (Laws.RoundTrip.rxParse rfl) _).trans
    (exec_rxParse (s := { s with inputs := [] }) h)

/-- A frame that finds room arrives behind the staged bytes, and the step does nothing else. -/
theorem step_frameBits {s : State} {id : Byte} {value : Half} {rest : List Input} (hf : s.fault = none)
    (hs : s.Inv) (hi : s.inputs = .wire (frameBits id value) :: rest) (hroom : s.rxWr + 5 ≤ s.rxCap) :
    ∃ t, step s = .next t ∧ t = { s with inputs := rest, rxMem := t.rxMem, rxWr := t.rxWr } ∧
      t.Inv ∧ t.rxContents = s.rxContents ++ frameBytes id value := by
  have hinv := inv_afterInput hs
  rw [afterInput_of_cons hi] at hinv
  refine ⟨_, ?_, receiveAll_frame _ _, inv_receiveAll hinv (frameBytes id value),
    rxContents_receiveAll hinv hroom⟩
  rw [step_of_cons hi, ← wireBytes_frameBits]
  exact arriveWire_eq { s with inputs := rest } hf _

/-- Settles O54: the frame is staged behind nothing, RX.PARSE is let in, and its run ends with the
frame's output. -/
theorem frameOnTheWireReachesStorage : Obligations.FrameOnTheWireReachesStorage := by
  intro id value s hidle hs hwr hroom hseek hi
  rw [append_eq_frameBits] at hi
  obtain ⟨t, hwire, ht, hinv, hcontents⟩ := step_frameBits hidle.1 hs hi (by omega)
  have hnone : s.rxContents = [] := by
    rw [← List.length_eq_zero_iff, rxContents_length, hwr, Nat.zero_sub]
  rw [hnone, List.nil_append] at hcontents
  have hparse := step_rxParse (s := t) (by rw [ht]; exact hidle) (by rw [ht])
  have hrun := runSteps_parse_frame (s := { t with inputs := [], coop := .parse })
    (by rw [ht]; exact hidle.1) { hinv with coop := coopOk_of_no_window (by simp) } rfl rfl
    (by rw [ht]; exact hseek) hcontents
  rw [runSteps_of_next hwire, runSteps_of_next hparse, hrun, ht]
  refine ⟨_, rfl, rfl, hidle.1, hseek, rfl, rfl, congrArg (s.trace ++ ·) ?_⟩
  unfold storeEvents
  cases lookupAddr s.params.paramMap id <;> rfl

/-! ### `tmr.arm` (R112) -/

/-- TMR.SETP on a claimed slot (R172). -/
theorem exec_tmrSetp {s : State} {slot : Byte} (ho : s.Open) (hlt : slot.toNat < s.tmrCount.val)
    (h : slot.toNat < Config.timerSlots) (period : Half) :
    exec (.tmrSetp slot period) s = .next { s with
      tmr := s.tmr.set slot.toNat ((s.tmr[slot.toNat]'h).setPeriod period) h } := by
  rw [exec_of_open ho rfl rfl, ruleOf, onSlot_of_lt hlt h]

/-- TMR.START on a claimed slot (R174). -/
theorem exec_tmrStart {s : State} {slot : Byte} (ho : s.Open) (hlt : slot.toNat < s.tmrCount.val)
    (h : slot.toNat < Config.timerSlots) (ar : Bool) :
    exec (.tmrStart slot ar) s = .next { s with
      tmr := s.tmr.set slot.toNat ((s.tmr[slot.toNat]'h).start ar) h } := by
  rw [exec_of_open ho rfl rfl, ruleOf, onSlot_of_lt hlt h]

/-- Settles O60: both commands act on the claimed slot, the second on what the first wrote. -/
theorem armSetsPeriodAndStarts : Obligations.ArmSetsPeriodAndStarts := by
  intro slot period ar s ho hlt h
  rw [Pseudo.expand, execAll_of_next (exec_tmrSetp ho hlt h period),
    execAll_of_next (exec_tmrStart (by exact ho) (by exact hlt) h ar), execAll]
  simp only [Vector.getElem_set_self, Vector.set_set]
  rfl

end Sys2Proof.Machine

/-! ## Ring Buffer (spec/40_ring_buffer.md): the queries (R142, R143, R145), the bytes in and out (R141,
R144, R146), and the ring as a queue (R147, R148) -/

namespace Sys2Proof.Machine

open Sys2Proof

/-! ### The sizes fit a result word and a `count` operand (R9, R108) -/

theorem txCap_le (s : State) : s.txCap ≤ 65535 := s.params.txBuffer.le_max

theorem txFree_le (s : State) : s.txFree ≤ s.txCap := Nat.sub_le _ _

theorem txRun_le_txCap (s : State) : s.txRun ≤ s.txCap := by
  unfold State.txRun
  omega

theorem txRun_le_txCnt (s : State) : s.txRun ≤ s.txCnt := Nat.min_le_left _ _

/-- A result word holds any number up to the capacity. -/
theorem toNat_ofNat_of_le_txCap {s : State} {n : Nat} (h : n ≤ s.txCap) :
    (BitVec.ofNat 32 n).toNat = n :=
  (BitVec.toNat_ofNat n 32).trans (Nat.mod_eq_of_lt (by have := txCap_le s; omega))

/-- A `count` operand holds the length of the contiguous run. -/
theorem toNat_ofNat_txRun (s : State) : (BitVec.ofNat 16 s.txRun).toNat = s.txRun :=
  (BitVec.toNat_ofNat s.txRun 16).trans
    (Nat.mod_eq_of_lt (by have := txCap_le s; have := txRun_le_txCap s; omega))

/-! ### What each command does on an open port (R141 to R146) -/

theorem addBytes_of_fits {s : State} {length : Half} (h : length.toNat ≤ s.txFree) (payload : List Byte) :
    s.addBytes length payload = s.enqueue payload := if_neg (Nat.not_lt.mpr h)

theorem addBytes_of_overflow {s : State} {length : Half} (h : s.txFree < length.toNat)
    (payload : List Byte) :
    s.addBytes length payload = s.raise .rbOverflow (commandWord (.rbAdd length payload)) := if_pos h

theorem removeBytes_of_le {s : State} {count : Half} (h : count.toNat ≤ s.txCnt) :
    s.removeBytes count = s.dequeue count.toNat := if_neg (Nat.not_lt.mpr h)

theorem removeBytes_of_lt {s : State} {count : Half} (h : s.txCnt < count.toNat) :
    s.removeBytes count = s.raise .rbUnderflow (commandWord (.rbRemove count)) := if_pos h

theorem exec_rbFree {s : State} (h : s.Open) :
    exec .rbFree s = .next (s.deliver (BitVec.ofNat 32 s.txFree)) := exec_of_open h rfl rfl

theorem exec_rbAdd {s : State} (h : s.Open) {length : Half} {payload : List Byte}
    (hl : payload.length = length.toNat) :
    exec (.rbAdd length payload) s = .next (s.addBytes length payload) :=
  exec_of_open h (beq_iff_eq.mpr hl) rfl

theorem exec_rbRemove {s : State} (h : s.Open) (count : Half) :
    exec (.rbRemove count) s = .next (s.removeBytes count) := exec_of_open h rfl rfl

/-- The state RB.PEEK leaves: the contiguous run sent out and its length answered (R145). -/
def State.peeked (s : State) : State :=
  (s.emit (.data (s.txMem.readRun s.txRd s.txRun))).deliver (BitVec.ofNat 32 s.txRun)

theorem exec_rbPeek {s : State} (h : s.Open) : exec .rbPeek s = .next s.peeked := exec_of_open h rfl rfl

/-- Settles O34: an open port runs the rule of R141. -/
theorem rbInitEmpties : Obligations.RbInitEmpties := fun _ h => exec_of_open h rfl rfl

theorem length_readRun (m : Memory) (at_ n : Nat) : (m.readRun at_ n).length = n := by
  rw [Memory.readRun_eq_map, List.length_map, List.length_range]

theorem getElem?_readRun (m : Memory) {at_ n k : Nat} (hk : k < n) :
    (m.readRun at_ n)[k]? = some (m.read (at_ + k)) := by
  rw [Memory.readRun_eq_map, List.getElem?_map, List.getElem?_range hk]
  rfl

/-- Settles O35: each answer fits its result word, since no buffer holds more than 65535 bytes. -/
theorem rbQueriesOnlyAnswer : Obligations.RbQueriesOnlyAnswer := by
  intro s ho _
  have hword : boolWord (s.txCnt == 0) = if s.txCnt = 0 then 1 else 0 := by simp [boolWord]
  have hrun := toNat_ofNat_of_le_txCap (txRun_le_txCap s)
  refine ⟨hword ▸ exec_of_open ho rfl rfl, ⟨_, toNat_ofNat_of_le_txCap (txFree_le s), exec_rbFree ho⟩,
    BitVec.ofNat 32 s.txRun, s.txMem.readRun s.txRd s.txRun, hrun, ?_, fun k hk => ?_, exec_rbPeek ho⟩
  · rw [length_readRun, hrun]
  · exact getElem?_readRun _ (hrun ▸ hk)

/-- Settles O36: with room the rule enqueues the payload, without it raises the fault. -/
theorem rbAddAppendsOrFaults : Obligations.RbAddAppendsOrFaults := by
  intro length payload s ho hs hl
  rw [exec_rbAdd ho hl]
  constructor
  · intro hfit
    refine ⟨_, rfl, ?_⟩
    rw [addBytes_of_fits hfit, ← hl]
    refine ⟨rfl, fun k hk => ?_, fun a ha => enqueue_read_other s ha⟩
    rw [enqueue_read_stored hs.txMemory.1 (by omega) hk, List.getElem?_eq_getElem hk]
  · intro hover
    rw [addBytes_of_overflow hover]
    rfl

/-- Settles O37: with enough bytes buffered the rule dequeues them, with fewer it raises the fault. -/
theorem rbRemoveFreesOrFaults : Obligations.RbRemoveFreesOrFaults := by
  intro count s ho
  rw [exec_rbRemove ho]
  constructor
  · intro hle
    rw [removeBytes_of_le hle]
    rfl
  · intro hlt
    rw [removeBytes_of_lt hlt]
    rfl

/-! ### Commands that raise no fault (R144, R146) -/

/-- An RB.ADD that leaves no fault recorded has enqueued its well-formed payload. -/
theorem enqueue_of_exec_rbAdd {s t : State} {length : Half} {payload : List Byte}
    (h : exec (.rbAdd length payload) s = .next t) (ht : t.fault = none) :
    payload.length = length.toNat ∧ length.toNat ≤ s.txFree ∧ t = s.enqueue payload := by
  obtain rfl := Host.Outcome.next.inj (ruleOf_of_exec_without_fault h ht)
  have hfit : length.toNat ≤ s.txFree := by
    by_contra hover
    rw [addBytes_of_overflow (Nat.lt_of_not_le hover)] at ht
    cases ht
  exact ⟨beq_iff_eq.mp (exec_next_cases h).1, hfit, addBytes_of_fits hfit payload⟩

/-- An RB.REMOVE that leaves no fault recorded has dequeued bytes that were buffered. -/
theorem dequeue_of_exec_rbRemove {s t : State} {count : Half}
    (h : exec (.rbRemove count) s = .next t) (ht : t.fault = none) :
    count.toNat ≤ s.txCnt ∧ t = s.dequeue count.toNat := by
  obtain rfl := Host.Outcome.next.inj (ruleOf_of_exec_without_fault h ht)
  have hle : count.toNat ≤ s.txCnt := by
    by_contra hunder
    rw [removeBytes_of_lt (Nat.lt_of_not_le hunder)] at ht
    cases ht
  exact ⟨hle, removeBytes_of_le hle⟩

/-- No command clears the fault record (R301, R309). -/
theorem fault_eq_none_of_exec {i : Instr} {s t : State} (h : exec i s = .next t) (ht : t.fault = none) :
    s.fault = none := by
  obtain ⟨-, ⟨-, rfl⟩ | ⟨hf, -⟩ | ⟨hf, -⟩⟩ := exec_next_cases h
  · exact ht
  · exact hf
  · exact hf

theorem execAll_cons_eq_some {i : Instr} {rest : List Instr} {s t : State}
    (h : execAll (i :: rest) s = some t) : ∃ u, exec i s = .next u ∧ execAll rest u = some t := by
  rw [execAll] at h
  obtain ⟨u, hu, hrest⟩ := Option.bind_eq_some_iff.mp h
  cases hexec : exec i s <;> rw [hexec] at hu <;> cases hu
  exact ⟨_, rfl, hrest⟩

/-- A sequence that ends without a fault began without one. -/
theorem fault_eq_none_of_execAll {cmds : List Instr} {s t : State} (h : execAll cmds s = some t)
    (ht : t.fault = none) : s.fault = none := by
  induction cmds generalizing s with
  | nil => cases h; exact ht
  | cons i rest ih =>
    obtain ⟨u, hi, hrest⟩ := execAll_cons_eq_some h
    exact fault_eq_none_of_exec hi (ih hrest)

/-! ### The conservation law (R147) -/

/-- An RB.ADD or an RB.REMOVE. -/
def AddsOrRemoves (i : Instr) : Prop := (∃ n p, i = .rbAdd n p) ∨ ∃ n, i = .rbRemove n

/-- One RB.ADD or RB.REMOVE without a fault changes the occupancy by what it adds and removes, and keeps
the busy state. -/
theorem exec_conserves {i : Instr} {s u : State} (hc : AddsOrRemoves i) (h : exec i s = .next u)
    (hu : u.fault = none) :
    u.coop = s.coop ∧ u.txCnt + removedBytes [i] = s.txCnt + addedBytes [i] := by
  obtain ⟨length, payload, rfl⟩ | ⟨count, rfl⟩ := hc
  · obtain ⟨hl, -, rfl⟩ := enqueue_of_exec_rbAdd h hu
    exact ⟨rfl, congrArg (s.txCnt + ·) hl⟩
  · obtain ⟨hle, rfl⟩ := dequeue_of_exec_rbRemove h hu
    exact ⟨rfl, Nat.sub_add_cancel hle⟩

theorem addedBytes_cons (i : Instr) (rest : List Instr) :
    addedBytes (i :: rest) = addedBytes [i] + addedBytes rest := by
  cases i <;> simp [addedBytes]

theorem removedBytes_cons (i : Instr) (rest : List Instr) :
    removedBytes (i :: rest) = removedBytes [i] + removedBytes rest := by
  cases i <;> simp [removedBytes]

/-- A sequence of RB.ADD and RB.REMOVE without a fault changes the occupancy by what it adds and removes,
and keeps the busy state and the invariants. -/
theorem execAll_conserves {cmds : List Instr} {s t : State} (hs : s.Inv)
    (hc : ∀ i ∈ cmds, AddsOrRemoves i) (h : execAll cmds s = some t) (ht : t.fault = none) :
    t.Inv ∧ t.coop = s.coop ∧ t.txCnt + removedBytes cmds = s.txCnt + addedBytes cmds := by
  induction cmds generalizing s with
  | nil => cases h; exact ⟨hs, rfl, rfl⟩
  | cons i rest ih =>
    obtain ⟨u, hi, hrest⟩ := execAll_cons_eq_some h
    obtain ⟨hci, hcrest⟩ := List.forall_mem_cons.mp hc
    obtain ⟨hcoop, hcnt⟩ := exec_conserves hci hi (fault_eq_none_of_execAll hrest ht)
    obtain ⟨hinv, hcoop', hcnt'⟩ := ih (inv_exec hs hi) hcrest hrest
    rw [addedBytes_cons, removedBytes_cons]
    exact ⟨hinv, hcoop'.trans hcoop, by omega⟩

/-- Settles O38: the sequence conserves bytes, and the port is open for RB.FREE after it. -/
theorem ringConservesBytes : Obligations.RingConservesBytes := by
  intro cmds s t ho hs hempty hc h ht
  obtain ⟨hinv, hcoop, hcnt⟩ := execAll_conserves hs hc h ht
  refine ⟨by omega, _, _, exec_rbFree ⟨ht, hcoop ▸ ho.2⟩, rfl, ?_⟩
  rw [toNat_ofNat_of_le_txCap (txFree_le t)]
  exact Nat.sub_add_cancel hinv.ring.1

/-! ### The ring as a queue (R148) -/

/-- The contiguous run is empty only when nothing is buffered. -/
theorem txContents_eq_nil_of_txRun {s : State} (hr : s.RingOk) (h : s.txRun = 0) : s.txContents = [] := by
  obtain ⟨-, hrd⟩ := hr
  unfold State.txRun at h
  rw [← List.length_eq_zero_iff, txContents_length]
  omega

/-- RB.PEEK sends out the contiguous run, the first bytes of the queue. -/
theorem peeked_trace {s : State} (hr : s.RingOk) :
    s.peeked.trace = s.trace ++ [.data (s.txContents.take s.txRun)] := by
  rw [← readRun_txRun hr]
  rfl

/-- Settles O39: RB.ADD, RB.REMOVE and RB.PEEK act by what enqueueing, dequeueing and reading the run do to
the list. -/
theorem ringIsAQueue : Obligations.RingIsAQueue := by
  intro s t ho hs ht
  refine ⟨fun length payload h => ?add, fun count h => ?remove, fun h => ?init, fun h => ?peek⟩
  case add =>
    obtain ⟨hl, hfit, rfl⟩ := enqueue_of_exec_rbAdd h ht
    exact txContents_enqueue hs.ring hs.txMemory.1 (hl.trans_le hfit)
  case remove =>
    obtain ⟨-, rfl⟩ := dequeue_of_exec_rbRemove h ht
    exact txContents_dequeue s count.toNat
  case init =>
    obtain rfl := Host.Outcome.next.inj (ruleOf_of_exec_without_fault h ht)
    rfl
  case peek =>
    obtain rfl := Host.Outcome.next.inj ((exec_rbPeek ho).symm.trans h)
    refine ⟨rfl, _, peeked_trace hs.ring, List.take_prefix _ _, fun hnil => ?_⟩
    rcases List.take_eq_nil_iff.mp hnil with hrun | hcontents
    · exact txContents_eq_nil_of_txRun hs.ring hrun
    · exact hcontents

/-! ### Two rounds of RB.PEEK and RB.REMOVE (R148) -/

/-- The state after one round: RB.PEEK, and RB.REMOVE of the length it returned. -/
def State.passRun (s : State) : State := s.peeked.dequeue s.txRun

theorem execAll_peek_remove {s : State} (ho : s.Open) (rest : List Instr) :
    execAll (.rbPeek :: .rbRemove (BitVec.ofNat 16 s.txRun) :: rest) s = execAll rest s.passRun := by
  have hremove : exec (.rbRemove (BitVec.ofNat 16 s.txRun)) s.peeked = .next s.passRun := by
    rw [exec_rbRemove (s := s.peeked) ho, removeBytes_of_le, toNat_ofNat_txRun]
    · rfl
    · rw [toNat_ofNat_txRun]
      exact txRun_le_txCnt s
  rw [execAll_of_next (exec_rbPeek ho), execAll_of_next hremove]

theorem passRun_open {s : State} (h : s.Open) : s.passRun.Open := h

theorem passRun_ringOk {s : State} (h : s.RingOk) : s.passRun.RingOk :=
  ⟨(Nat.sub_le s.txCnt s.txRun).trans h.1, Nat.mod_lt _ (txCap_pos s)⟩

theorem passRun_trace {s : State} (h : s.RingOk) :
    s.passRun.trace = s.trace ++ [.data (s.txContents.take s.txRun)] := peeked_trace h

theorem passRun_txCnt (s : State) : s.passRun.txCnt = s.txCnt - s.txRun := rfl

theorem passRun_txContents (s : State) : s.passRun.txContents = s.txContents.drop s.txRun :=
  txContents_dequeue s.peeked s.txRun

/-- What one round leaves no longer wraps: either nothing is left, or the consumer cursor has come to
index 0. -/
theorem passRun_txRun {s : State} (h : s.RingOk) : s.passRun.txRun = s.passRun.txCnt := by
  obtain ⟨hcnt, hrd⟩ := h
  refine Nat.min_eq_left ?_
  show s.txCnt - s.txRun ≤ s.txCap - (s.txRd + s.txRun) % s.txCap
  rcases Nat.le_total s.txCnt (s.txCap - s.txRd) with hall | hwrap
  · rw [State.txRun, Nat.min_eq_left hall, Nat.sub_self]
    exact Nat.zero_le _
  · rw [State.txRun, Nat.min_eq_right hwrap, Nat.add_sub_cancel' hrd.le, Nat.mod_self]
    omega

/-- Settles O40: the first round takes the contiguous run and the second all that is left. -/
theorem twoPeeksYieldEveryByte : Obligations.TwoPeeksYieldEveryByte := by
  intro s ho hs
  have hleft := passRun_txRun hs.ring
  refine ⟨BitVec.ofNat 16 s.txRun, BitVec.ofNat 16 s.passRun.txRun, s.txContents.take s.txRun,
    s.txContents.drop s.txRun, s.passRun.passRun, ?_, ?_, List.take_append_drop _ _, ?_, ho.1, ?_, ?_⟩
  · rw [toNat_ofNat_txRun, List.length_take, txContents_length, Nat.min_eq_left (txRun_le_txCnt s)]
  · rw [toNat_ofNat_txRun, hleft, ← passRun_txContents, txContents_length]
  · rw [execAll_peek_remove ho, execAll_peek_remove (passRun_open ho), execAll]
  · rw [passRun_trace (passRun_ringOk hs.ring), passRun_trace hs.ring, hleft,
      List.take_of_length_le (txContents_length _).le, passRun_txContents, List.append_assoc]
    rfl
  · rw [passRun_txCnt, hleft, Nat.sub_self]

end Sys2Proof.Machine

/-! ## Soft-Timer Multiplexer (spec/41_soft_timer.md): the commands (R170 to R180, R184), the dispatch
micro-step (R182), a whole pass (R181) and rounds of a tick and a pass (R188, R189) -/

namespace Sys2Proof.Machine

open Sys2Proof

/-! ### The commands on an open port (R170 to R177) -/

theorem createTimer_of_room {s : State} (h : s.tmrCount.val < Config.timerSlots) (token : Half) :
    s.createTimer token = { s with
      tmr := s.tmr.set s.tmrCount.val ((s.tmr[s.tmrCount.val]'h).create token) h
      tmrCount := ⟨s.tmrCount.val + 1, Nat.succ_lt_succ h⟩
      results := s.results ++ [BitVec.ofNat 32 s.tmrCount.val] } := dif_pos h

theorem createTimer_of_full {s : State} (h : s.tmrCount.val = Config.timerSlots) (token : Half) :
    s.createTimer token = s.deliver 0x000000FF := dif_neg h.not_lt

theorem exec_tmrCreate {s : State} (h : s.Open) (token : Half) :
    exec (.tmrCreate token) s = .next (s.createTimer token) := exec_of_open h rfl rfl

/-- Settles O22: an open port runs the rule of R170, with a free slot and without. -/
theorem createClaimsTheNextSlot : Obligations.CreateClaimsTheNextSlot := by
  intro token s ho
  rw [exec_tmrCreate ho]
  exact ⟨fun h => congrArg _ (createTimer_of_room h token),
    fun h => congrArg _ (createTimer_of_full h token)⟩

/-- A command on a slot that is not claimed raises `F_BAD_SLOT` (R171). -/
theorem exec_onSlot_of_le {i : Instr} {slot : Byte} {update : Timer → Timer} {s : State} (ho : s.Open)
    (hw : i.wellFormed = true) (ha : s.coop.admitsInstr i = s.coop.admits false false)
    (hrule : ruleOf i s = .next (s.onSlot i slot update)) (hle : s.tmrCount.val ≤ slot.toNat) :
    exec i s = .next (s.raise .badSlot (commandWord i)) := by
  rw [exec_of_open ho hw ha, hrule, onSlot_of_le hle]

/-- TMR.STOP on a claimed slot (R176). -/
theorem exec_tmrStop {s : State} {slot : Byte} (ho : s.Open) (hlt : slot.toNat < s.tmrCount.val)
    (h : slot.toNat < Config.timerSlots) :
    exec (.tmrStop slot) s = .next { s with
      tmr := s.tmr.set slot.toNat (s.tmr[slot.toNat]'h).stop h } := by
  rw [exec_of_open ho rfl rfl, ruleOf, onSlot_of_lt hlt h]

/-- Settles O23: the slot is claimed, or the operand check fails. -/
theorem setpWritesPeriodOnly : Obligations.SetpWritesPeriodOnly := fun _ period _ ho =>
  ⟨fun hlt h => exec_tmrSetp ho hlt h period, exec_onSlot_of_le ho rfl rfl rfl⟩

/-- Settles O24: the slot is claimed, or the operand check fails. -/
theorem startArmsFromZero : Obligations.StartArmsFromZero := fun _ ar _ ho =>
  ⟨fun hlt h => exec_tmrStart ho hlt h ar, exec_onSlot_of_le ho rfl rfl rfl⟩

/-- Settles O25: the slot is claimed, or the operand check fails. -/
theorem stopOnlyDisables : Obligations.StopOnlyDisables := fun _ _ ho =>
  ⟨exec_tmrStop ho, exec_onSlot_of_le ho rfl rfl rfl⟩

/-! ### TMR.TICK (R178) and the other interrupt event (R210, R306) -/

/-- The state TMR.TICK leaves (R178). -/
def State.ticked (s : State) : State := { s with tmr := mapTimers Timer.tick s.tmr }

theorem exec_tmrTick {s : State} (hf : s.fault = none) : exec .tmrTick s = .next s.ticked :=
  exec_admitted rfl hf rfl

theorem ticked_slot (s : State) (j : Fin Config.timerSlots) :
    s.ticked.tmr[j.val]'j.isLt = (s.tmr[j.val]'j.isLt).tick := mapTimers_get _ _ j.isLt

theorem tick_of_disabled {t : Timer} (h : t.enabled = false) : t.tick = t := by
  simp [Timer.tick, h]

theorem tick_of_enabled {t : Timer} (h : t.enabled = true) :
    t.tick = { t with elapsed := t.elapsed + 1 } := if_pos h

/-- Settles O26: every busy state admits the tick, which goes through the table slot by slot. -/
theorem tickAdvancesRunningSlotsOnly : Obligations.TickAdvancesRunningSlotsOnly := by
  refine fun s hf => ⟨_, exec_tmrTick hf, rfl, fun j => ⟨fun he => ?_, fun he => ?_⟩⟩
  · exact (ticked_slot s j).trans (tick_of_disabled he)
  · exact ⟨_, BitVec.toNat_add _ _, (ticked_slot s j).trans (tick_of_enabled he)⟩

/-- The reception of a byte and the tick do not look at what the other writes. -/
theorem receive_ticked (s : State) (b : Byte) : s.ticked.receive b = (s.receive b).ticked := by
  by_cases h : s.rxWr < s.rxCap
  · rw [receive_stored h, receive_stored (s := s.ticked) h]
    rfl
  · rw [receive_dropped (Nat.not_lt.mp h), receive_dropped (s := s.ticked) (Nat.not_lt.mp h)]

/-- Settles O55: a halted BSC ignores both events; otherwise they write different fields, and neither
field is an output. -/
theorem interruptEventsCommute : Obligations.InterruptEventsCommute := by
  intro b s
  by_cases hf : s.fault = none
  · have htick : execAll [.tmrTick, .rxByte b] s = some (s.receive b).ticked := by
      rw [execAll_of_next (exec_tmrTick hf), execAll_of_next (exec_rxByte (s := s.ticked) hf b), execAll,
        receive_ticked]
    have hbyte : execAll [.rxByte b, .tmrTick] s = some (s.receive b).ticked := by
      have hf' : (s.receive b).fault = none := (receiveAll_fault s [b]).trans hf
      rw [execAll_of_next (exec_rxByte hf b), execAll_of_next (exec_tmrTick hf'), execAll]
    refine ⟨htick.trans hbyte.symm, fun t ht => ?_⟩
    obtain rfl := Option.some.inj (htick.symm.trans ht)
    rw [receive_frame]
    exact ⟨rfl, rfl⟩
  · have htick : exec .tmrTick s = .next s := exec_halted rfl hf
    have hbyte : exec (.rxByte b) s = .next s := exec_halted rfl hf
    rw [execAll_of_next htick, execAll_of_next hbyte, execAll_of_next hbyte, execAll_of_next htick]
    exact ⟨rfl, fun t ht => Option.some.inj ht ▸ ⟨rfl, rfl⟩⟩

/-! ### The multi-step commands and TMR.CBRET (R180, R184, R221, R255) -/

/-- An idle BSC begins a pass (R180). -/
theorem exec_tmrDispatch {s : State} (h : s.Idle) :
    exec .tmrDispatch s = .next { s with coop := .dispatch 0 } := exec_admitted rfl h.1 (h.admits true)

/-- Settles O27: `IDLE` admits the three. -/
theorem multiStepCommandsBegin : Obligations.MultiStepCommandsBegin := fun _ h =>
  ⟨exec_tmrDispatch h, exec_rxParse h, exec_admitted rfl h.1 (h.admits true)⟩

/-- TMR.CBRET in a callback window (R184). -/
theorem exec_tmrCbret {s : State} {j : Fin Config.timerSlots} (hf : s.fault = none)
    (hc : s.coop = .callback j) : exec .tmrCbret s = .next { s with coop := .dispatch j.succ } := by
  rw [exec_admitted rfl hf (by rw [hc]; rfl), ruleOf, State.closeWindow, hc]

/-- Only an open window admits TMR.CBRET (R303). -/
theorem admitsInstr_tmrCbret_of_no_window {c : Coop} (h : ∀ j, c ≠ .callback j) :
    c.admitsInstr .tmrCbret = false := by
  cases c with
  | callback j => exact absurd rfl (h j)
  | idle | dispatch | parse | drain => rfl

/-- Settles O28: the busy state admits TMR.CBRET in a window and nowhere else. -/
theorem cbretClosesTheWindow : Obligations.CbretClosesTheWindow := fun _ hf =>
  ⟨fun _ hc => exec_tmrCbret hf hc,
    fun hc => exec_rejected rfl hf (admitsInstr_tmrCbret_of_no_window hc)⟩

/-! ### The micro-step (R182, R183, R256) -/

/-- Idle, in an open window and waiting for `TX_READY`, halted or not, the BSC takes no step of its own. -/
theorem microStep_of_waiting {s : State} (h : s.coop = .idle ∨ (∃ j, s.coop = .callback j) ∨
    (s.coop = .drain ∧ s.txReady = false ∧ s.txCnt ≠ 0)) : microStep s = .next s := by
  unfold microStep
  split
  · rfl
  · obtain hc | ⟨j, hc⟩ | ⟨hc, hready, hcnt⟩ := h
    · rw [hc]
    · rw [hc]
    · simp [hc, State.drainStep, hready, hcnt]

/-- Settles O30: the step is the BSC's own, and the BSC has none to take. -/
theorem nothingToDoRepeatsTheState : Obligations.NothingToDoRepeatsTheState := fun s halone h =>
  (step_of_alone halone).trans (microStep_of_waiting (s := s.afterInput) h)

section
variable {s : State} {j : Fin Config.timerSlots}

theorem scan_last (s : State) : s.scan (Fin.last Config.timerSlots) = { s with coop := .idle } := rfl

theorem scan_of_disabled (he : (s.tmr[j.val]'j.isLt).enabled = false) :
    s.scan j.castSucc = { s with coop := .dispatch j.succ } := by
  simp [State.scan, he, Fin.succ]

theorem scan_of_unset (he : (s.tmr[j.val]'j.isLt).enabled = true)
    (hp : (s.tmr[j.val]'j.isLt).periodSet = false) :
    s.scan j.castSucc = s.raise .unsetPeriod (commandWord .tmrDispatch) := by
  simp [State.scan, he, hp]

theorem scan_of_not_reached (he : (s.tmr[j.val]'j.isLt).enabled = true)
    (hp : (s.tmr[j.val]'j.isLt).periodSet = true) (hr : (s.tmr[j.val]'j.isLt).reached = false) :
    s.scan j.castSucc = { s with coop := .dispatch j.succ } := by
  simp [State.scan, he, hp, hr, Fin.succ]

theorem scan_of_reached (he : (s.tmr[j.val]'j.isLt).enabled = true)
    (hp : (s.tmr[j.val]'j.isLt).periodSet = true) (hr : (s.tmr[j.val]'j.isLt).reached = true) :
    s.scan j.castSucc = { s with
      tmr := s.tmr.set j.val (s.tmr[j.val]'j.isLt).fired j.isLt
      trace := s.trace ++ [.fire (BitVec.ofNat 8 j.val) (s.tmr[j.val]'j.isLt).cb]
      coop := .callback j } := by
  simp [State.scan, he, hp, hr, State.emit, State.setTimer]

end

theorem fired_of_autoReload {t : Timer} (h : t.autoReload = true) :
    t.fired = { t with elapsed := 0 } := if_pos h

theorem fired_of_oneShot {t : Timer} (h : t.autoReload = false) :
    t.fired = { t with enabled := false } := by
  simp [Timer.fired, h]

/-- Settles O29: the step is the BSC's own micro-step at `DISPATCH(i)`, where slot `i` decides. -/
theorem dispatchMicroStep : Obligations.DispatchMicroStep := by
  intro s i hf hc halone
  rw [step_of_alone halone, microStep_dispatch (s := s.afterInput) hf hc]
  refine ⟨fun hi => ?_, fun h =>
    ⟨fun he => ?_, fun he => ⟨fun hp => ?_, fun hp => ⟨fun hlt => ?_, fun hle => ?_⟩⟩⟩⟩
  · obtain rfl : i = Fin.last _ := Fin.ext hi
    rfl
  · exact congrArg _ (scan_of_disabled (s := s.afterInput) (j := ⟨i.val, h⟩) he)
  · exact congrArg _ (scan_of_unset (s := s.afterInput) (j := ⟨i.val, h⟩) he hp)
  · exact congrArg _ (scan_of_not_reached (s := s.afterInput) (j := ⟨i.val, h⟩) he hp
      (decide_eq_false (Nat.not_le.mpr hlt)))
  · have hfire := scan_of_reached (s := s.afterInput) (j := ⟨i.val, h⟩) he hp (decide_eq_true hle)
    refine ⟨fun ha => ?_, fun ha => ?_⟩
    · rw [fired_of_autoReload (by exact ha)] at hfire
      exact congrArg _ hfire
    · rw [fired_of_oneShot (by exact ha)] at hfire
      exact congrArg _ hfire

/-! ### One slot of a pass (R182, R184) -/

/-- The slot is Running and due (R17, R182). -/
def Timer.due (t : Timer) : Bool := t.enabled && t.periodSet && t.reached

theorem State.due_eq (s : State) (j : Fin Config.timerSlots) :
    s.due j = (s.tmr[j.val]'j.isLt).due := rfl

theorem Timer.due_eq_true_iff (t : Timer) :
    t.due = true ↔ t.enabled = true ∧ t.periodSet = true ∧ t.reached = true := by
  simp [Timer.due, and_assoc]

/-- What a pass does to a slot: it fires if it is due (R182). -/
def Timer.passed (t : Timer) : Timer := if t.due then t.fired else t

theorem passed_frame (t : Timer) :
    t.passed = { t with elapsed := t.passed.elapsed, enabled := t.passed.enabled } := by
  unfold Timer.passed
  split
  · exact fired_frame t
  · rfl

theorem enabled_of_passed {t : Timer} (h : t.passed.enabled = true) : t.enabled = true := by
  unfold Timer.passed at h
  split at h
  · next hd => exact ((Timer.due_eq_true_iff t).mp hd).1
  · exact h

/-- The event that fires slot `j` (R182). -/
def State.fireOf (s : State) (j : Fin Config.timerSlots) : Event :=
  .fire (BitVec.ofNat 8 j.val) (s.tmr[j.val]'j.isLt).cb

/-- The events of a pass at the slots of a list (R182). -/
def State.fires (s : State) (js : List (Fin Config.timerSlots)) : List Event :=
  (js.filter s.due).map s.fireOf

theorem fires_cons (s : State) (j : Fin Config.timerSlots) (js : List (Fin Config.timerSlots)) :
    s.fires (j :: js) = s.fires [j] ++ s.fires js := by
  rw [State.fires, State.fires, State.fires, ← List.map_append, ← List.filter_append,
    List.singleton_append]

/-- The events depend on the listed slots alone. -/
theorem fires_of_same_slots {s t : State} {js : List (Fin Config.timerSlots)}
    (h : ∀ k ∈ js, t.tmr[k.val]'k.isLt = s.tmr[k.val]'k.isLt) : t.fires js = s.fires js := by
  have hdue : js.filter t.due = js.filter s.due :=
    List.filter_congr fun k hk => by rw [State.due_eq, State.due_eq, h k hk]
  rw [State.fires, State.fires, hdue]
  exact List.map_congr_left fun k hk => by
    rw [State.fireOf, State.fireOf, h k (List.mem_of_mem_filter hk)]

/-- The state in which the pass comes to the slot after `j`, the window of `j` closed if there was one. -/
def State.passSlot (s : State) (j : Fin Config.timerSlots) : State :=
  { s with
    tmr := s.tmr.set j.val (s.tmr[j.val]'j.isLt).passed j.isLt
    trace := s.trace ++ s.fires [j]
    coop := .dispatch j.succ }

section
variable {s : State} {j : Fin Config.timerSlots}

theorem passSlot_of_due (h : s.due j = true) : s.passSlot j = { s with
    tmr := s.tmr.set j.val (s.tmr[j.val]'j.isLt).fired j.isLt
    trace := s.trace ++ [s.fireOf j]
    coop := .dispatch j.succ } := by
  simp [State.passSlot, State.fires, h, Timer.passed, ← State.due_eq]

theorem passSlot_of_not_due (h : s.due j = false) : s.passSlot j = { s with coop := .dispatch j.succ } := by
  simp [State.passSlot, State.fires, h, Timer.passed, ← State.due_eq]

/-- A slot that is not due is passed over, its period being set if it is Running. -/
theorem scan_of_not_due (hp : s.PeriodsSet) (h : s.due j = false) : s.scan j.castSucc = s.passSlot j := by
  rw [passSlot_of_not_due h]
  cases he : (s.tmr[j.val]'j.isLt).enabled
  · exact scan_of_disabled he
  · exact scan_of_not_reached he (hp j he) (by simpa [State.due, he, hp j he] using h)

theorem passSlot_slot_same : (s.passSlot j).tmr[j.val]'j.isLt = (s.tmr[j.val]'j.isLt).passed :=
  Vector.getElem_set_self _

theorem passSlot_slot_ne {k : Fin Config.timerSlots} (h : j ≠ k) :
    (s.passSlot j).tmr[k.val]'k.isLt = s.tmr[k.val]'k.isLt :=
  Vector.getElem_set_ne j.isLt _ (Fin.val_ne_of_ne h)

/-- A pass sets no slot Running and unsets no period. -/
theorem passSlot_periodsSet (hp : s.PeriodsSet) : (s.passSlot j).PeriodsSet := by
  intro k he
  by_cases hk : j = k
  · subst hk
    rw [passSlot_slot_same] at he ⊢
    rw [passed_frame]
    exact hp j (enabled_of_passed he)
  · rw [passSlot_slot_ne hk] at he ⊢
    exact hp k he

/-! ### A whole pass (R181) -/

theorem finishPass_of_idle (n : Nat) (hc : s.coop = .idle) : finishPass n s = some s := by
  cases n <;> simp [finishPass, hc]

theorem finishPass_of_dispatch {i : Fin (Config.timerSlots + 1)} (n : Nat) (hf : s.fault = none)
    (hc : s.coop = .dispatch i) : finishPass (n + 1) s = finishPass n (s.scan i) := by
  simp [finishPass, hc, microStep_dispatch hf hc, nextState]

theorem finishPass_of_callback (n : Nat) (hf : s.fault = none) (hc : s.coop = .callback j) :
    finishPass (n + 1) s = finishPass n { s with coop := .dispatch j.succ } := by
  simp [finishPass, hc, exec_tmrCbret hf hc, nextState]

/-- A pass comes past a slot in one step, or in two if it opens a window. -/
theorem finishPass_of_slot (n : Nat) (hf : s.fault = none) (hp : s.PeriodsSet)
    (hc : s.coop = .dispatch j.castSucc) :
    finishPass (n + 2) s = finishPass (if s.due j then n else n + 1) (s.passSlot j) := by
  rw [finishPass_of_dispatch _ hf hc]
  cases hd : s.due j
  · rw [scan_of_not_due hp hd]
    rfl
  · obtain ⟨he, hset, hr⟩ := (Timer.due_eq_true_iff _).mp hd
    rw [scan_of_reached he hset hr, finishPass_of_callback n (by exact hf) rfl, passSlot_of_due hd]
    rfl

end

/-- The state after the slots of a list have been passed in order. -/
def State.passSlots (s : State) (js : List (Fin Config.timerSlots)) : State := js.foldl State.passSlot s

/-- From slot `i` a pass goes through the slots from `i` on, and two steps for each are enough. -/
theorem finishPass_from_slot {k n : Nat} {s : State} {i : Fin (Config.timerSlots + 1)}
    (hf : s.fault = none) (hp : s.PeriodsSet) (hc : s.coop = .dispatch i)
    (hk : i.val + k = Config.timerSlots) (hn : 2 * k + 1 ≤ n) :
    finishPass n s =
      some { s.passSlots ((List.finRange Config.timerSlots).drop i.val) with coop := .idle } := by
  induction k generalizing n s i with
  | zero =>
    obtain ⟨n, rfl⟩ := Nat.exists_eq_add_of_le' hn
    obtain rfl : i = Fin.last _ := Fin.ext hk
    rw [finishPass_of_dispatch _ hf hc, scan_last, finishPass_of_idle _ rfl]
    rfl
  | succ k ih =>
    obtain ⟨n, rfl⟩ := Nat.exists_eq_add_of_le' (show 2 ≤ n by omega)
    have hi : i.val < Config.timerSlots := by omega
    rw [finishPass_of_slot (j := ⟨i.val, hi⟩) n hf hp hc, ih (by exact hf) (passSlot_periodsSet hp) rfl
      (by simp only [Fin.val_succ]; omega) (by split <;> omega)]
    have hdrop : (List.finRange Config.timerSlots).drop i.val =
        ⟨i.val, hi⟩ :: (List.finRange Config.timerSlots).drop (i.val + 1) := by
      rw [List.drop_eq_getElem_cons (by simpa using hi), List.getElem_finRange]
      rfl
    rw [hdrop]
    rfl

theorem passSlots_cons (s : State) (j : Fin Config.timerSlots) (js : List (Fin Config.timerSlots)) :
    s.passSlots (j :: js) = (s.passSlot j).passSlots js := rfl

theorem passSlots_frame (s : State) (js : List (Fin Config.timerSlots)) :
    s.passSlots js = { s with
      tmr := (s.passSlots js).tmr, trace := (s.passSlots js).trace, coop := (s.passSlots js).coop } := by
  induction js generalizing s with
  | nil => rfl
  | cons j js ih =>
    rw [passSlots_cons, ih]
    rfl

/-- Passing other slots leaves a slot as it was. -/
theorem passSlots_slot_of_not_mem {s : State} {js : List (Fin Config.timerSlots)}
    {k : Fin Config.timerSlots} (hk : k ∉ js) :
    (s.passSlots js).tmr[k.val]'k.isLt = s.tmr[k.val]'k.isLt := by
  induction js generalizing s with
  | nil => rfl
  | cons j js ih =>
    exact (ih (List.not_mem_of_not_mem_cons hk)).trans
      (passSlot_slot_ne (List.ne_of_not_mem_cons hk).symm)

/-- Each listed slot is passed once, in the state it was in. -/
theorem passSlots_slot_of_mem {s : State} {js : List (Fin Config.timerSlots)} (hn : js.Nodup)
    {k : Fin Config.timerSlots} (hk : k ∈ js) :
    (s.passSlots js).tmr[k.val]'k.isLt = (s.tmr[k.val]'k.isLt).passed := by
  induction js generalizing s with
  | nil => cases hk
  | cons j js ih =>
    obtain ⟨hj, hn⟩ := List.nodup_cons.mp hn
    rw [passSlots_cons]
    rcases List.mem_cons.mp hk with rfl | hk
    · exact (passSlots_slot_of_not_mem hj).trans passSlot_slot_same
    · exact (ih hn hk).trans (congrArg _ (passSlot_slot_ne fun he => hj (he ▸ hk)))

theorem passSlots_trace {s : State} {js : List (Fin Config.timerSlots)} (hn : js.Nodup) :
    (s.passSlots js).trace = s.trace ++ s.fires js := by
  induction js generalizing s with
  | nil => exact (List.append_nil _).symm
  | cons j js ih =>
    obtain ⟨hj, hn⟩ := List.nodup_cons.mp hn
    have hrest : (s.passSlot j).fires js = s.fires js :=
      fires_of_same_slots fun k hk => passSlot_slot_ne fun he => hj (he ▸ hk)
    rw [passSlots_cons, ih hn, hrest, fires_cons, ← List.append_assoc]
    rfl

/-- The state a complete pass leaves (R181, R182). -/
def State.passed (s : State) : State :=
  { s with
    tmr := mapTimers Timer.passed s.tmr
    trace := s.trace ++ s.fires (List.finRange Config.timerSlots) }

theorem State.passed_slot (s : State) (j : Fin Config.timerSlots) :
    s.passed.tmr[j.val]'j.isLt = (s.tmr[j.val]'j.isLt).passed := mapTimers_get _ _ j.isLt

/-- Passing every slot of the table in order is a complete pass, but for the busy state. -/
theorem passSlots_finRange (s : State) : s.passSlots (List.finRange Config.timerSlots) =
    { s.passed with coop := (s.passSlots (List.finRange Config.timerSlots)).coop } := by
  have hnodup := List.nodup_finRange Config.timerSlots
  have htmr : (s.passSlots (List.finRange Config.timerSlots)).tmr = s.passed.tmr :=
    Vector.ext fun k hk => (passSlots_slot_of_mem (k := ⟨k, hk⟩) hnodup (List.mem_finRange _)).trans
      (s.passed_slot ⟨k, hk⟩).symm
  rw [passSlots_frame, htmr, passSlots_trace hnodup]
  rfl

theorem dispatchPass_eq {s : State} (h : s.Idle) (hp : s.PeriodsSet) :
    dispatchPass s = some s.passed := by
  rw [dispatchPass, exec_tmrDispatch h, nextState, Option.bind_some,
    finishPass_from_slot (k := Config.timerSlots) (by exact h.1) (by exact hp) rfl rfl le_rfl,
    Fin.val_zero, List.drop_zero, passSlots_finRange, ← h.2]
  rfl

/-- Settles O31: a pass goes through the table in order and does the same to each slot. -/
theorem passFiresDueSlotsInOrder : Obligations.PassFiresDueSlotsInOrder := by
  refine fun s h hp => ⟨_, dispatchPass_eq h hp, rfl, rfl, fun j => ?_⟩
  rw [State.passed_slot, Timer.passed, Timer.fired]
  rfl

/-! ### Rounds of a tick and a pass, slot by slot (R188, R189) -/

/-- What one round does to a slot (R178, R182). -/
def Timer.round (t : Timer) : Timer := t.tick.passed

/-- How often a slot fires in so many rounds. -/
def Timer.firings : Nat → Timer → Nat
  | 0, _ => 0
  | n + 1, t => t.tick.due.toNat + Timer.firings n t.round

/-- The state one round leaves. -/
def State.round (s : State) : State := s.ticked.passed

theorem State.round_slot (s : State) (j : Fin Config.timerSlots) :
    s.round.tmr[j.val]'j.isLt = (s.tmr[j.val]'j.isLt).round :=
  (s.ticked.passed_slot j).trans (congrArg _ (ticked_slot s j))

theorem ticked_periodsSet {s : State} (hp : s.PeriodsSet) : s.ticked.PeriodsSet := by
  intro j he
  rw [ticked_slot] at he ⊢
  rw [tick_periodSet]
  exact hp j (tick_enabled _ ▸ he)

theorem passed_periodsSet {s : State} (hp : s.PeriodsSet) : s.passed.PeriodsSet := by
  intro j he
  rw [State.passed_slot] at he ⊢
  rw [passed_frame]
  exact hp j (enabled_of_passed he)

theorem rounds_succ {s : State} (h : s.Idle) (hp : s.PeriodsSet) (n : Nat) :
    rounds (n + 1) s = rounds n s.round := by
  rw [rounds, exec_tmrTick h.1, nextState, Option.bind_some,
    dispatchPass_eq (s := s.ticked) h (ticked_periodsSet hp), Option.bind_some]
  rfl

theorem firesOf_append (slot : Byte) (l l' : List Event) :
    firesOf slot (l ++ l') = firesOf slot l + firesOf slot l' := by
  rw [firesOf, List.filter_append, List.length_append]
  rfl

/-- The slot byte of an event tells the slots apart. -/
theorem slotByte_beq : ∀ k j : Fin Config.timerSlots,
    (BitVec.ofNat 8 k.val == BitVec.ofNat 8 j.val) = (k == j) := by decide

theorem firesOf_map_fireOf (s : State) (j : Fin Config.timerSlots) (js : List (Fin Config.timerSlots)) :
    firesOf (BitVec.ofNat 8 j.val) (js.map s.fireOf) = (js.filter (· == j)).length := by
  rw [firesOf, List.filter_map, List.length_map]
  exact congrArg List.length (List.filter_congr fun k _ => slotByte_beq k j)

/-- A pass fires a slot once if it is due, and not otherwise. -/
theorem firesOf_fires (s : State) (j : Fin Config.timerSlots) :
    firesOf (BitVec.ofNat 8 j.val) (s.fires (List.finRange Config.timerSlots)) = (s.due j).toNat := by
  have honce : (List.finRange Config.timerSlots).filter (· == j) = [j] := by
    rw [List.filter_beq, List.count_eq_one_of_mem (List.nodup_finRange _) (List.mem_finRange j)]
    rfl
  have hsplit : ((List.finRange Config.timerSlots).filter s.due).filter (· == j) = [j].filter s.due := by
    rw [List.filter_comm, honce]
  rw [State.fires, firesOf_map_fireOf, hsplit]
  cases hd : s.due j <;> simp [hd]

theorem firesOf_round (s : State) (j : Fin Config.timerSlots) :
    firesOf (BitVec.ofNat 8 j.val) s.round.trace =
      firesOf (BitVec.ofNat 8 j.val) s.trace + (s.tmr[j.val]'j.isLt).tick.due.toNat := by
  rw [← ticked_slot, ← State.due_eq, ← firesOf_fires, ← firesOf_append]
  rfl

/-- Rounds go on from an idle state without a fault, and each slot goes its own way. -/
theorem rounds_slot {n : Nat} {s : State} (h : s.Idle) (hp : s.PeriodsSet) (j : Fin Config.timerSlots) :
    ∃ t, rounds n s = some t ∧
      firesOf (BitVec.ofNat 8 j.val) t.trace =
        firesOf (BitVec.ofNat 8 j.val) s.trace + (s.tmr[j.val]'j.isLt).firings n ∧
      t.tmr[j.val]'j.isLt = Timer.round^[n] (s.tmr[j.val]'j.isLt) := by
  induction n generalizing s with
  | zero => exact ⟨s, rfl, rfl, rfl⟩
  | succ n ih =>
    obtain ⟨t, ht, hfires, hslot⟩ := ih (s := s.round) h (passed_periodsSet (ticked_periodsSet hp))
    rw [State.round_slot] at hfires hslot
    refine ⟨t, (rounds_succ h hp n).trans ht, ?_, hslot⟩
    rw [hfires, firesOf_round, Nat.add_assoc]
    rfl

theorem tick_period (t : Timer) : t.tick.period = t.period := by rw [tick_frame]

theorem tick_autoReload (t : Timer) : t.tick.autoReload = t.autoReload := by rw [tick_frame]

section
variable {t : Timer} (he : t.enabled = true) (hp : t.periodSet = true)
include he

/-- The tick of a Running slot does not wrap below the end of its range. -/
theorem tick_elapsed_toNat (h : t.elapsed.toNat < 65535) :
    t.tick.elapsed.toNat = t.elapsed.toNat + 1 := by
  rw [tick_of_enabled he]
  exact BitVec.toNat_add_of_lt (Nat.succ_lt_succ h)

include hp

/-- The due test of a Running slot after a tick that does not wrap (R182). -/
theorem tick_due (h : t.elapsed.toNat < 65535) :
    t.tick.due = decide (t.period.toNat ≤ t.elapsed.toNat + 1) := by
  rw [Timer.due, tick_enabled, he, tick_periodSet, hp, ← tick_elapsed_toNat he h, ← tick_period]
  rfl

/-- A round that does not reach the period is the tick alone. -/
theorem round_of_early (h : t.elapsed.toNat + 1 < t.period.toNat) :
    t.tick.due = false ∧ t.round = t.tick := by
  have hdue := (tick_due he hp (by have := t.period.isLt; omega)).trans (decide_eq_false h.not_ge)
  exact ⟨hdue, if_neg (by simp [hdue])⟩

/-- A round that reaches the period fires. -/
theorem round_of_reached (hlt : t.elapsed.toNat < 65535) (h : t.period.toNat ≤ t.elapsed.toNat + 1) :
    t.tick.due = true ∧ t.round = t.tick.fired := by
  have hdue := (tick_due he hp hlt).trans (decide_eq_true h)
  exact ⟨hdue, if_pos hdue⟩

/-- One round of a Running auto-reload slot: `elapsed` counts modulo the period (R188). -/
theorem round_of_autoReload (ha : t.autoReload = true) (h : t.elapsed.toNat < t.period.toNat) :
    t.round = { t with elapsed := t.round.elapsed } ∧
    t.round.elapsed.toNat = (t.elapsed.toNat + 1) % t.period.toNat ∧
    t.tick.due.toNat = (t.elapsed.toNat + 1) / t.period.toNat := by
  have hlt : t.elapsed.toNat < 65535 := by have := t.period.isLt; omega
  rcases Nat.lt_or_ge (t.elapsed.toNat + 1) t.period.toNat with hearly | hreached
  · obtain ⟨hdue, hround⟩ := round_of_early he hp hearly
    rw [hround, hdue, Nat.mod_eq_of_lt hearly, Nat.div_eq_of_lt hearly]
    exact ⟨tick_frame t, tick_elapsed_toNat he hlt, rfl⟩
  · obtain ⟨hdue, hround⟩ := round_of_reached he hp hlt hreached
    have hend : t.elapsed.toNat + 1 = t.period.toNat := by omega
    rw [hround, hdue, hend, Nat.mod_self, Nat.div_self (by omega),
      fired_of_autoReload ((tick_autoReload t).trans ha), tick_of_enabled he]
    exact ⟨rfl, rfl, rfl⟩

end

/-- `n` rounds of a Running auto-reload slot, from any `elapsed` below its period (R188). -/
theorem rounds_of_autoReload {n : Nat} {t : Timer} (he : t.enabled = true) (hp : t.periodSet = true)
    (ha : t.autoReload = true) (h : t.elapsed.toNat < t.period.toNat) :
    t.firings n = (t.elapsed.toNat + n) / t.period.toNat ∧
    (Timer.round^[n] t).elapsed.toNat = (t.elapsed.toNat + n) % t.period.toNat := by
  induction n generalizing t with
  | zero => exact ⟨(Nat.div_eq_of_lt h).symm, (Nat.mod_eq_of_lt h).symm⟩
  | succ n ih =>
    obtain ⟨hframe, helapsed, hdue⟩ := round_of_autoReload he hp ha h
    have hpos : 0 < t.period.toNat := by omega
    obtain ⟨hfirings, hrounds⟩ := ih (t := t.round) (by rw [hframe]; exact he) (by rw [hframe]; exact hp)
      (by rw [hframe]; exact ha) (by rw [helapsed, hframe]; exact Nat.mod_lt _ hpos)
    have hperiod : t.round.period = t.period := by rw [hframe]
    rw [helapsed, hperiod] at hfirings hrounds
    constructor
    · rw [Timer.firings, hdue, hfirings]
      have hsum : t.elapsed.toNat + (n + 1) = t.period.toNat * ((t.elapsed.toNat + 1) / t.period.toNat) +
          ((t.elapsed.toNat + 1) % t.period.toNat + n) := by
        have := Nat.div_add_mod (t.elapsed.toNat + 1) t.period.toNat
        omega
      rw [hsum, Nat.mul_add_div hpos]
    · rw [Function.iterate_succ_apply, hrounds, Nat.mod_add_mod]
      congr 1; omega

/-- Settles O32: the slot's own rounds from `elapsed = 0`. -/
theorem autoReloadFiresOncePerPeriod : Obligations.AutoReloadFiresOncePerPeriod := by
  intro n s j h hp he ha hzero hpos
  obtain ⟨t, ht, hfires, hslot⟩ := rounds_slot (n := n) h hp j
  have hstart : (s.tmr[j.val]'j.isLt).elapsed.toNat = 0 := congrArg BitVec.toNat hzero
  obtain ⟨hfirings, hrounds⟩ := rounds_of_autoReload (n := n) he (hp j he) ha (by omega)
  rw [hstart, Nat.zero_add] at hfirings hrounds
  exact ⟨t, ht, hfires.trans (congrArg _ hfirings), hslot ▸ hrounds⟩

/-- A Disabled slot stays as it is and does not fire. -/
theorem rounds_of_disabled {t : Timer} (he : t.enabled = false) (n : Nat) :
    t.firings n = 0 ∧ Timer.round^[n] t = t := by
  have hdue : t.tick.due = false := by simp [Timer.due, tick_enabled, he]
  have hround : t.round = t := by
    rw [Timer.round, Timer.passed, if_neg (by simp [hdue]), tick_of_disabled he]
  refine ⟨?_, Function.iterate_fixed hround n⟩
  induction n with
  | zero => rfl
  | succ n ih => rw [Timer.firings, hdue, hround, ih]; rfl

/-- `n` rounds of a Running one-shot slot, from any `elapsed` at which it has not been due (R189). -/
theorem rounds_of_oneShot {n : Nat} {t : Timer} (he : t.enabled = true) (hp : t.periodSet = true)
    (ha : t.autoReload = false) (h : t.elapsed.toNat < max 1 t.period.toNat) :
    (t.elapsed.toNat + n < max 1 t.period.toNat →
      t.firings n = 0 ∧ (Timer.round^[n] t).enabled = true) ∧
    (max 1 t.period.toNat ≤ t.elapsed.toNat + n →
      t.firings n = 1 ∧ (Timer.round^[n] t).enabled = false) := by
  induction n generalizing t with
  | zero => exact ⟨fun _ => ⟨rfl, he⟩, fun hle => absurd hle (Nat.not_le.mpr h)⟩
  | succ n ih =>
    have hlt : t.elapsed.toNat < 65535 := by have := t.period.isLt; omega
    rw [Timer.firings, Function.iterate_succ_apply]
    rcases Nat.lt_or_ge (t.elapsed.toNat + 1) t.period.toNat with hearly | hreached
    · obtain ⟨hdue, hround⟩ := round_of_early he hp hearly
      have helapsed := tick_elapsed_toNat he hlt
      have hrest := ih (t := t.tick) ((tick_enabled t).trans he) ((tick_periodSet t).trans hp)
        ((tick_autoReload t).trans ha) (by rw [helapsed, tick_period]; omega)
      rw [helapsed, tick_period, Nat.add_assoc, Nat.add_comm 1 n] at hrest
      rw [hround, hdue, Bool.toNat_false, Nat.zero_add]
      exact hrest
    · obtain ⟨hdue, hround⟩ := round_of_reached he hp hlt hreached
      rw [fired_of_oneShot ((tick_autoReload t).trans ha)] at hround
      obtain ⟨hfirings, hrounds⟩ := rounds_of_disabled (t := t.round) (by rw [hround]) n
      rw [hdue, hfirings, hrounds, hround]
      exact ⟨fun hlt => by omega, fun _ => ⟨rfl, rfl⟩⟩

/-- Settles O33: the slot's own rounds from `elapsed = 0`. -/
theorem oneShotFiresExactlyOnce : Obligations.OneShotFiresExactlyOnce := by
  intro n s j h hp he ha hzero
  obtain ⟨t, ht, hfires, hslot⟩ := rounds_slot (n := n) h hp j
  have hstart : (s.tmr[j.val]'j.isLt).elapsed.toNat = 0 := congrArg BitVec.toNat hzero
  have hrounds := rounds_of_oneShot (n := n) he (hp j he) ha (by omega)
  rw [hstart, Nat.zero_add] at hrounds
  refine ⟨t, ht, ?_⟩
  rw [hfires, hslot]
  exact ⟨fun hn => (hrounds.1 hn).imp_left fun h0 => by rw [h0, Nat.add_zero],
    fun hn => (hrounds.2 hn).imp_left fun h1 => by rw [h1]⟩

end Sys2Proof.Machine

/-! ## Serial receive and frame parser (spec/42_serial_receive.md): RX.BYTE and RX.READ (R210, R213), the
staged bytes as a queue (R214, R224), PRS.BYTE (R216 to R220, R223), RX.PARSE (R221) -/

namespace Sys2Proof.Machine

open Sys2Proof

/-! ### RX.BYTE and RX.READ (R210, R213) -/

/-- Settles O41: a byte is stored exactly when the write cursor is below the capacity. -/
theorem rxByteStoresOrDrops : Obligations.RxByteStoresOrDrops := by
  intro b s hf hm
  refine ⟨fun hroom => ⟨s.receive b, exec_rxByte hf b, ?_⟩, fun hfull => ?_⟩
  · rw [receive_stored hroom]
    exact ⟨rfl, Memory.read_write_same hm _ b, fun _ => Memory.read_write_other s.rxMem b⟩
  · rw [exec_rxByte hf, receive_dropped hfull]

/-- A byte as a result word (R108, R213). -/
theorem setWidth_eq_zero_append (b : Byte) : b.setWidth 32 = 0#24 ++ b := by
  apply BitVec.eq_of_toNat_eq
  rw [BitVec.toNat_setWidth, BitVec.toNat_append, BitVec.toNat_ofNat]
  simp only [Nat.zero_mod, Nat.zero_shiftLeft, Nat.zero_or]
  omega

/-- With a byte staged RX.READ passes it and delivers it (R213). -/
theorem exec_rxRead_of_staged {s : State} (ho : s.Open) (hs : s.StagingOk) (hne : s.rxRd ≠ s.rxWr) :
    exec .rxRead s = .next (s.passByte.deliver (0#24 ++ s.rxMem.read s.rxRd)) := by
  rw [exec_of_open ho rfl rfl, ruleOf, if_neg hne, popRx_of_stagingOk hs hne, ← setWidth_eq_zero_append]

/-- With nothing staged RX.READ raises `F_RX_EMPTY` (R213). -/
theorem exec_rxRead_of_drained {s : State} (ho : s.Open) (he : s.rxRd = s.rxWr) :
    exec .rxRead s = .next (s.raise .rxEmpty 0x21000000) := by
  rw [exec_of_open ho rfl rfl, ruleOf, if_pos he]
  rfl

/-- Settles O42: the two cases of a staged byte differ in what passing it does to the cursors. -/
theorem rxReadPopsOrFaults : Obligations.RxReadPopsOrFaults := by
  intro s ho hs
  refine ⟨fun hmore => ?_, fun hlast => ?_, exec_rxRead_of_drained ho⟩
  · rw [exec_rxRead_of_staged ho hs (by omega), passByte_more (by omega)]
    rfl
  · rw [exec_rxRead_of_staged ho hs (by omega), passByte_last hlast]
    rfl

/-! ### The staged bytes as a queue (R214, R224) -/

/-- Settles O43: a received byte goes behind the staged ones, a passed byte was the oldest. -/
theorem stagingIsAQueue : Obligations.StagingIsAQueue := by
  intro s t hs ht
  refine ⟨fun b h => ?_, fun ho h => ?_⟩
  · obtain rfl := Host.Outcome.next.inj (ruleOf_of_exec_without_fault h ht)
    exact rxContents_receive hs.staging hs.rxMemory.1 b
  · obtain ⟨-, rfl⟩ | ⟨hne, rfl⟩ := ruleOf_rxRead_next_cases (ruleOf_of_exec_without_fault h ht)
    · cases ht
    · refine ⟨s.rxMem.read s.rxRd, rxContents_passByte hs.staging hne, ?_⟩
      rw [State.deliver_results, passByte_frame, setWidth_eq_zero_append]

theorem receiveAll_of_full {s : State} (h : s.rxCap ≤ s.rxWr) (bytes : List Byte) :
    s.receiveAll bytes = s := by
  induction bytes with
  | nil => rfl
  | cons b rest ih => rw [State.receiveAll, receive_dropped h, ih]

/-- Only the bytes that find room count: the others are dropped (R224). -/
theorem receiveAll_take_room (s : State) (bytes : List Byte) :
    s.receiveAll (bytes.take (s.rxCap - s.rxWr)) = s.receiveAll bytes := by
  induction bytes generalizing s with
  | nil => rw [List.take_nil]
  | cons b rest ih =>
    by_cases hlt : s.rxWr < s.rxCap
    · have hroom : s.rxCap - s.rxWr = (s.receive b).rxCap - (s.receive b).rxWr + 1 := by
        rw [receive_rxCap, receive_stored hlt]
        dsimp only
        omega
      rw [hroom, List.take_succ_cons, State.receiveAll, ih, State.receiveAll]
    · have hfull : s.rxCap ≤ s.rxWr := Nat.le_of_not_lt hlt
      rw [receiveAll_of_full hfull, receiveAll_of_full hfull]

/-- Settles O44: the bytes that find room are received into an empty buffer. -/
theorem overflowKeepsTheFirstBytes : Obligations.OverflowKeepsTheFirstBytes := by
  intro bytes s hf hs hwr
  have hroom : s.rxWr + (bytes.take s.rxCap).length ≤ s.rxCap := by
    rw [hwr, Nat.zero_add]
    exact List.length_take_le _ _
  have hnone : s.rxContents = [] := by
    rw [← List.length_eq_zero_iff, rxContents_length, hwr, Nat.zero_sub]
  have hkept := receiveAll_take_room s bytes
  rw [hwr, Nat.sub_zero] at hkept
  refine ⟨_, execAll_rxByte s hf bytes, ?_⟩
  rw [← hkept, rxContents_receiveAll hs hroom, hnone, receiveAll_of_room hroom, hwr, List.length_take,
    Nat.zero_add, Nat.min_comm]
  exact ⟨rfl, rfl⟩

/-! ### PRS.BYTE (R215 to R220) -/

/-- PRS.BYTE on an open port is one byte through the parser (R215). -/
theorem exec_prsByte {s : State} (h : s.Open) (b : Byte) :
    exec (.prsByte b) s = .next (s.parseByte b) := exec_of_open h rfl rfl

section ParseByte

variable {s : State} {b : Byte}

theorem parseByte_of_startByte (h : s.prsState = .seeking) :
    s.parseByte Config.startByte = { s with prsState := .expectId } := by
  rw [State.parseByte, h]
  exact if_pos rfl

theorem parseByte_of_not_startByte (h : s.prsState = .seeking) (hb : b ≠ Config.startByte) :
    s.parseByte b = s := by
  rw [State.parseByte, h]
  exact if_neg hb

theorem parseByte_of_expectId (h : s.prsState = .expectId) :
    s.parseByte b = { s with prsId := b, prsState := .expectHigh } := by
  rw [State.parseByte, h]

theorem parseByte_of_expectHigh (h : s.prsState = .expectHigh) :
    s.parseByte b = { s with prsValue := b.setWidth 16 <<< 8, prsState := .expectLow } := by
  rw [State.parseByte, h]

theorem parseByte_of_expectLow (h : s.prsState = .expectLow) :
    s.parseByte b = { s with prsValue := s.prsValue + b.setWidth 16, prsState := .expectEnd } := by
  rw [State.parseByte, h]

theorem parseByte_of_endByte (h : s.prsState = .expectEnd) :
    s.parseByte Config.endByte = { s with
      prsState := .seeking, trace := s.trace ++ storeEvents s.params.paramMap s.prsId s.prsValue } := by
  rw [State.parseByte, h]
  exact endFrame_endByte s

/-- A wrong terminator is consumed and nothing is written (R220). -/
theorem parseByte_of_not_endByte (h : s.prsState = .expectEnd) (hb : b ≠ Config.endByte) :
    s.parseByte b = { s with prsState := .seeking } := by
  rw [State.parseByte, h]
  exact if_neg hb

end ParseByte

/-- `valueHigh` is the high byte of the value, over a low byte of 0 (R218). -/
theorem shiftLeft_eq_append_zero (b : Byte) : b.setWidth 16 <<< 8 = b ++ 0#8 := by
  simpa [joinBytes] using shiftLeft_add_eq_joinBytes b 0

/-- `valueLow` is added modulo 2^16 (R219). -/
theorem toNat_add_setWidth (v : Half) (b : Byte) :
    (v + b.setWidth 16).toNat = (v.toNat + b.toNat) % 65536 := by
  rw [BitVec.toNat_add, BitVec.toNat_setWidth, Nat.add_mod_mod]

/-- Settles O45: the parser's cases for states 0 to 3. -/
theorem parserTakesAFrameByte : Obligations.ParserTakesAFrameByte := by
  intro b s ho
  rw [exec_prsByte ho]
  refine ⟨?start, fun h hb => ?other, fun h => ?id, fun h => ?high, fun h => ?low⟩
  case start =>
    rintro h rfl
    exact congrArg _ (parseByte_of_startByte h)
  case other => rw [parseByte_of_not_startByte h hb]
  case id => rw [parseByte_of_expectId h]
  case high => rw [parseByte_of_expectHigh h, shiftLeft_eq_append_zero]
  case low => exact ⟨_, toNat_add_setWidth s.prsValue b, by rw [parseByte_of_expectLow h]⟩

theorem storeEvents_of_some {m : ParamMap} {id : Byte} {addr : StorageAddr}
    (h : lookupAddr m id = some addr) (value : Half) :
    storeEvents m id value = [.storeWrite addr value] := by
  rw [storeEvents, h]
  rfl

theorem storeEvents_of_none {m : ParamMap} {id : Byte} (h : lookupAddr m id = none) (value : Half) :
    storeEvents m id value = [] := by
  rw [storeEvents, h]
  rfl

/-- Settles O46: the end byte ends the frame with its output, any other byte without. -/
theorem parserEndsTheFrame : Obligations.ParserEndsTheFrame := by
  intro b s ho h
  rw [exec_prsByte ho]
  refine ⟨?_, ?_, fun hb => congrArg _ (parseByte_of_not_endByte h hb)⟩
  · rintro addr rfl hknown
    refine congrArg _ ((parseByte_of_endByte h).trans ?_)
    rw [storeEvents_of_some hknown]
  · rintro rfl hunknown
    refine congrArg _ ((parseByte_of_endByte h).trans ?_)
    rw [storeEvents_of_none hunknown, List.append_nil]

/-! ### Whole frames (R121, R223) -/

theorem parseByte_open {s : State} (h : s.Open) (b : Byte) : (s.parseByte b).Open := by
  rw [parseByte_frame]
  exact h

/-- PRS.BYTE for each byte of a list is the parser over the list. -/
theorem execAll_prsByte {s : State} (h : s.Open) (bytes : List Byte) :
    execAll (bytes.map Instr.prsByte) s = some (bytes.foldl State.parseByte s) := by
  induction bytes generalizing s with
  | nil => rfl
  | cons b rest ih =>
    rw [List.map_cons, execAll_of_next (exec_prsByte h b), ih (parseByte_open h b), List.foldl_cons]

/-- Settles O48: the parser over the five bytes of the frame. -/
theorem parserAssemblesAnyFrame : Obligations.ParserAssemblesAnyFrame := by
  intro id hi lo s ho hseek
  refine ⟨_, execAll_prsByte ho _, (foldl_parseByte_frame hseek id hi lo).trans ?_⟩
  cases hid : lookupAddr s.params.paramMap id
  · rw [storeEvents_of_none hid]
    rfl
  · rw [storeEvents_of_some hid]
    rfl

/-- From state 0 the first four bytes of any frame leave its id, its value and state 4 (R121, R216 to
R219). -/
theorem foldl_parseByte_unterminated {s : State} (h : s.prsState = .seeking) (id hi lo : Byte) :
    [Config.startByte, id, hi, lo].foldl State.parseByte s =
      { s with prsId := id, prsValue := joinBytes hi lo, prsState := .expectEnd } := by
  rw [List.foldl_cons, parseByte_of_startByte h, ← shiftLeft_add_eq_joinBytes]
  rfl

/-- From state 0 a frame with a wrong terminator leaves state 0 and no output (R220, R223). -/
theorem foldl_parseByte_bad_frame {s : State} (h : s.prsState = .seeking) (id hi lo : Byte) {bad : Byte}
    (hbad : bad ≠ Config.endByte) :
    [Config.startByte, id, hi, lo, bad].foldl State.parseByte s =
      { s with prsId := id, prsValue := joinBytes hi lo } := by
  refine (congrArg (State.parseByte · bad) (foldl_parseByte_unterminated h id hi lo)).trans ?_
  rw [h]
  exact parseByte_of_not_endByte rfl hbad

/-- Settles O49: the bad frame leaves the parser in state 0, where the good frame begins. -/
theorem parserResynchronises : Obligations.ParserResynchronises := by
  intro id hi lo bad id' hi' lo' s ho hseek hbad
  have hfold : ([Config.startByte, id, hi, lo, bad] ++
      [Config.startByte, id', hi', lo', Config.endByte]).foldl State.parseByte s = { s with
        prsId := id'
        prsValue := joinBytes hi' lo'
        trace := s.trace ++ storeEvents s.params.paramMap id' (joinBytes hi' lo') } := by
    rw [List.foldl_append, foldl_parseByte_bad_frame hseek id hi lo hbad]
    exact foldl_parseByte_frame (by exact hseek) id' hi' lo'
  refine ⟨_, (execAll_prsByte ho _).trans (congrArg some hfold), hseek, congrArg (s.trace ++ ·) ?_⟩
  cases hid : lookupAddr s.params.paramMap id'
  · exact storeEvents_of_none hid _
  · exact storeEvents_of_some hid _

/-! ### RX.PARSE (R221) -/

theorem parseStep_of_drained {s : State} (h : s.rxRd = s.rxWr) :
    s.parseStep = .next { s with coop := .idle } := if_pos h

theorem parseStep_of_staged {s : State} (hs : s.StagingOk) (hne : s.rxRd ≠ s.rxWr) :
    s.parseStep = .next (s.passByte.parseByte (s.rxMem.read s.rxRd)) := by
  rw [State.parseStep, if_neg hne, popRx_of_stagingOk hs hne]

/-- Settles O50: the step is the micro-step of RX.PARSE behind the input taken off. -/
theorem parseMicroStep : Obligations.ParseMicroStep := by
  intro s hf hs hc halone
  have hstep : step s = s.afterInput.parseStep :=
    (step_of_alone halone).trans (microStep_parse (s := s.afterInput) hf hc)
  have hstaged := parseStep_of_staged (s := s.afterInput) hs
  rw [hstep]
  refine ⟨parseStep_of_drained (s := s.afterInput), fun hmore => ?_, fun hlast => ?_⟩
  · rw [hstaged (Nat.lt_of_succ_lt hmore).ne, passByte_more (s := s.afterInput) hmore.ne]
    rfl
  · rw [hstaged (Nat.lt_of_succ_le hlast.le).ne, passByte_last (s := s.afterInput) hlast]
    rfl

/-- Settles O51: the run of RX.PARSE over what is staged. -/
theorem parseRunConsumesEveryByte : Obligations.ParseRunConsumesEveryByte := by
  intro s hf hs hc hi
  rw [← rxContents_length]
  exact runSteps_parse hf hs hc hi rfl

end Sys2Proof.Machine

/-! ## Serial transmit (spec/43_serial_transmit.md): the enqueue commands (R250 to R253), the drain
micro-step (R257) and a whole drain (R258) -/

namespace Sys2Proof.Machine

open Sys2Proof

/-! ### TX.SEND, TX.PACKET and TX.BYTE (R250 to R253) -/

theorem send_of_fits {s : State} {bytes : List Byte} (h : bytes.length ≤ s.txFree) :
    s.send bytes = (s.enqueue bytes).deliver 1 := if_neg (Nat.not_lt.mpr h)

theorem send_of_no_room {s : State} {bytes : List Byte} (h : s.txFree < bytes.length) :
    s.send bytes = s.deliver 0 := if_pos h

/-- On an open port each of the three enqueue commands runs the enqueue they share (R250). -/
theorem exec_of_sendsBytes {i : Instr} {bytes : List Byte} {s : State} (h : SendsBytes i bytes)
    (ho : s.Open) : exec i s = .next (s.send bytes) := by
  obtain ⟨length, hl, rfl⟩ | ⟨id, value, rfl, rfl⟩ | ⟨b, rfl, rfl⟩ := h
  · exact exec_of_open ho (beq_iff_eq.mpr hl) rfl
  · exact exec_of_open ho rfl rfl
  · exact exec_of_open ho rfl rfl

/-- Settles O56: with room the shared enqueue stores every byte and answers 1, without it answers 0. -/
theorem sendEnqueuesAllOrNothing : Obligations.SendEnqueuesAllOrNothing := by
  intro i bytes s hsends ho hs
  rw [exec_of_sendsBytes hsends ho]
  constructor
  · intro hfit
    refine ⟨_, rfl, ?_⟩
    rw [send_of_fits hfit]
    refine ⟨rfl, fun k hk => ?_, fun a ha => enqueue_read_other s ha⟩
    rw [State.deliver_txMem, enqueue_read_stored hs.txMemory.1 (hfit.trans (txFree_le s)) hk,
      List.getElem?_eq_getElem hk]
  · intro hover
    rw [send_of_no_room hover]
    rfl

/-! ### The drain micro-step (R257) -/

/-- The state after the oldest buffered byte is sent out and removed (R257). -/
def State.sentOldest (s : State) : State := (s.emit (.uartTx (s.txMem.read s.txRd))).dequeue 1

theorem drainStep_of_empty {s : State} (h : s.txCnt = 0) : s.drainStep = .next { s with coop := .idle } :=
  if_pos h

theorem drainStep_of_ready {s : State} (hs : s.RingOk) (hne : s.txCnt ≠ 0) (hready : s.txReady = true) :
    s.drainStep = .next s.sentOldest := by
  rw [State.drainStep, if_neg hne, if_pos hready, if_pos hs.2, State.sentOldest]

/-- While a drain is in progress and nothing arrives, the step is its micro-step. -/
theorem step_of_draining {s : State} (hf : s.fault = none) (hc : s.coop = .drain) (halone : s.Alone) :
    step s = s.afterInput.drainStep :=
  (step_of_alone halone).trans (microStep_drain (s := s.afterInput) hf hc)

/-- Settles O57: the step is the micro-step of TX.DRAIN behind the input taken off. -/
theorem drainMicroStep : Obligations.DrainMicroStep := by
  intro s hf hs hc halone
  rw [step_of_draining hf hc halone]
  exact ⟨drainStep_of_empty (s := s.afterInput), drainStep_of_ready (s := s.afterInput) hs⟩

/-! ### A whole drain (R258) -/

/-- The byte that is sent out is the head of the queue, and its removal leaves the tail. -/
theorem txContents_eq_cons {s : State} (hs : s.RingOk) (hne : s.txCnt ≠ 0) :
    s.txContents = s.txMem.read s.txRd :: s.sentOldest.txContents := by
  have hpos : 0 < s.txContents.length := by
    rw [txContents_length]
    exact Nat.pos_of_ne_zero hne
  have hhead : s.txContents[0] = s.txMem.read s.txRd := by
    simp [State.txContents, Nat.mod_eq_of_lt hs.2]
  have htail : s.sentOldest.txContents = s.txContents.drop 1 := txContents_dequeue _ 1
  rw [htail, ← hhead, List.getElem_cons_drop hpos, List.drop_zero]

/-- A drain over `n` buffered bytes with `TX_READY` at 1 and nothing arriving. -/
theorem runSteps_drain {n : Nat} {s : State} (hf : s.fault = none) (hs : s.Inv) (hc : s.coop = .drain)
    (hready : s.txReady = true) (hi : s.inputs = []) (hn : s.txCnt = n) :
    runSteps (n + 1) s = some { s with
      trace := s.trace ++ s.txContents.map Event.uartTx
      txRd := (s.txRd + n) % s.txCap
      txCnt := 0
      coop := .idle } := by
  induction n generalizing s with
  | zero =>
    have hstep : step s = .next { s with coop := .idle } := by
      rw [step_of_draining hf hc (.inl hi), afterInput_of_nil hi, drainStep_of_empty hn]
    have hnil : s.txContents = [] := by rw [← List.length_eq_zero_iff, txContents_length, hn]
    rw [runSteps_of_next hstep, runSteps, hnil, Nat.add_zero, Nat.mod_eq_of_lt hs.ring.2, List.map_nil,
      List.append_nil, ← hn]
  | succ n ih =>
    have hne : s.txCnt ≠ 0 := hn ▸ Nat.succ_ne_zero n
    have hsent := drainStep_of_ready hs.ring hne hready
    have hstep : step s = .next s.sentOldest := by
      rw [step_of_draining hf hc (.inl hi), afterInput_of_nil hi, hsent]
    have hrd : ((s.txRd + 1) % s.txCap + n) % s.txCap = (s.txRd + (n + 1)) % s.txCap := by
      rw [Nat.mod_add_mod, Nat.add_assoc, Nat.add_comm 1 n]
    rw [runSteps_of_next hstep, ih (s := s.sentOldest) hf (inv_drainStep hs hsent) hc hready hi
      (Nat.sub_eq_of_eq_add hn), txContents_eq_cons hs.ring hne, ← hrd, List.map_cons, List.append_cons]
    rfl

/-- Settles O58: the run of a drain over what is buffered. -/
theorem drainRunSendsEveryByte : Obligations.DrainRunSendsEveryByte := fun _ hf hs hc hready hi =>
  runSteps_drain hf hs hc hready hi rfl

end Sys2Proof.Machine

/-! ## Exceptions (spec/60_exceptions.md): when a command is let in (R303), a halted BSC and what a raised
fault leaves unchanged (R301), and the queue during a drain (R258, R303) -/

namespace Sys2Proof.Machine

open Sys2Proof

/-! ### When a command is let in (R303) -/

/-- Of the command words only the two interrupt events come in on the interrupt port (R104). -/
theorem portOf_eq_irq_iff {i : Instr} {cw : Word} {payload : List Byte}
    (h : encode i = .command cw payload) :
    portOf i = .irq ↔ i = .tmrTick ∨ ∃ b, i = .rxByte b := by
  cases i
  case frame => cases h
  all_goals simp [portOf]

theorem admitsInstr_of_irq {i : Instr} (h : portOf i = .irq) (c : Coop) :
    c.admitsInstr i = true := by
  cases i <;> cases h <;> rfl

/-- The busy states that reject a cooperative command (R303). -/
theorem admitsInstr_eq_false_iff {i : Instr} (h : portOf i = .coop) (c : Coop) :
    c.admitsInstr i = false ↔
      (∃ j, c = .dispatch j) ∨ c = .parse ∨ c = .drain ∨ (c = .idle ∧ i = .tmrCbret) ∨
      ((∃ j, c = .callback j) ∧ (i = .tmrDispatch ∨ i = .rxParse ∨ i = .txDrain)) := by
  cases i
  case tmrTick | rxByte | frame => cases h
  all_goals cases c <;> simp [Coop.admitsInstr, Coop.admits]

/-- The clauses of R303 that turn a command word away are those under which `accept` answers false. -/
theorem turnedAway_iff {i : Instr} {cw : Word} {payload : List Byte}
    (h : encode i = .command cw payload) (p : Port) (c : Coop) :
    TurnedAway i p c ↔ accept i p c = false := by
  have hirq := portOf_eq_irq_iff h
  unfold TurnedAway accept
  rw [← not_exists, ← not_or, ← hirq]
  cases hp : portOf i with
  | irq => cases p <;> simp [admitsInstr_of_irq hp]
  | coop =>
    rw [← admitsInstr_eq_false_iff hp]
    cases p <;> simp

/-- A rule raises no `F_CONTEXT`: that fault belongs to the checks before it (R106, R300). -/
theorem ruleOf_fault_ne_context {i : Instr} {s t : State} (h : ruleOf i s = .next t)
    (hf : s.fault = none) (w : Word) : t.fault ≠ some ⟨.context, w⟩ := by
  cases i
  case rxRead =>
    rcases ruleOf_rxRead_next_cases h with ⟨-, rfl⟩ | ⟨-, rfl⟩
    · simp
    · simp [passByte_fault, hf]
  all_goals obtain rfl := Host.Outcome.next.inj h
  case tmrSetp | tmrStart | tmrStop | rbAdd | rbRemove => -- these raise a fault of their operand
    simp only [State.onSlot, State.addBytes, State.removeBytes]
    split <;> simp [hf]
  case tmrCreate | tmrCbret | txSend | txPacket | txByte =>
    simp only [State.createTimer, State.closeWindow, State.send]
    split <;> simp [hf]
  case rxByte b =>
    have hnone : (s.receive b).fault = none := (receiveAll_fault s [b]).trans hf
    simp [hnone]
  case frame => simp [receiveAll_fault, hf]
  case prsByte => simp [parseByte_fault, hf]
  all_goals simp [hf]

theorem exec_fault_ne_context {i : Instr} {s t : State} (hf : s.fault = none)
    (ha : s.coop.admitsInstr i = true) (h : exec i s = .next t) (w : Word) :
    t.fault ≠ some ⟨.context, w⟩ := by
  have hw : i.wellFormed = true := (exec_next_cases h).1
  rw [exec_admitted hw hf ha] at h
  exact ruleOf_fault_ne_context h hf w

theorem arrive_of_accept {i : Instr} {p : Port} {cw : Word} {payload : List Byte} {s : State}
    (hd : decode (.command cw payload) = .ok i) (ha : accept i p s.coop = true) :
    arrive p cw payload s = exec i s := by
  have hp : p = portOf i := beq_iff_eq.mp (Bool.and_eq_true_iff.mp ha).1
  rw [arrive, hd]
  exact if_pos hp

/-- A word that is not let in raises `F_CONTEXT`, from the port check or from the busy state (R303). -/
theorem arrive_of_not_accept {i : Instr} {p : Port} {cw : Word} {payload : List Byte} {s : State}
    (hd : decode (.command cw payload) = .ok i) (hf : s.fault = none)
    (ha : accept i p s.coop = false) : arrive p cw payload s = .next (s.raise .context cw) := by
  rw [arrive, hd]
  dsimp only
  split
  · next hp =>
    rw [hp, accept_own_port] at ha
    rw [exec_rejected (decodedPacketIsTheEncoding _ _ hd).2 hf ha, commandWord_of_decode hd]
  · rw [if_neg (by simpa using hf)]

/-- Settles O7: R303's clauses are `accept`; a word let in runs its rule, which raises no `F_CONTEXT`. -/
theorem portAcceptance : Obligations.PortAcceptance := by
  intro s i p cw payload rest hf hw henc hi
  have hd : decode (.command cw payload) = .ok i := henc ▸ decodeOfEncodeIsTheInstruction i hw
  have hfault : ({ s with inputs := rest } : State).fault = none := hf
  rw [step_of_cons hi, turnedAway_iff henc, Bool.not_eq_false]
  refine ⟨arrive_of_not_accept hd hfault, fun ha => ?_⟩
  have hexec : takeInput (.word p cw payload) { s with inputs := rest } =
    exec i { s with inputs := rest } := arrive_of_accept hd ha
  have hadmits : s.coop.admitsInstr i = true := (Bool.and_eq_true_iff.mp ha).2
  exact ⟨hexec, fun t w ht => exec_fault_ne_context hfault hadmits (hexec.symm.trans ht) w⟩

/-! ### A halted BSC (R106, R301) -/

theorem microStep_halted {s : State} (hf : s.fault ≠ none) : microStep s = .next s :=
  if_pos (by simpa using hf)

theorem arriveWire_halted {s : State} (hf : s.fault ≠ none) (bits : BitVec 40) :
    arriveWire bits s = .next s := by
  unfold arriveWire
  split
  · next hd => exact exec_halted (decodedPacketIsTheEncoding _ _ hd).2 hf
  · rw [if_pos (by simpa using hf)]

theorem arrive_halted {s : State} (hf : s.fault ≠ none) {cw : Word} {payload : List Byte}
    (hl : payload.length = payloadLength cw) (p : Port) : arrive p cw payload s = .next s := by
  have hh : s.halted = true := by simpa using hf
  unfold arrive
  split
  · next he => exact absurd hl ((decode_eq_payloadMismatch_iff cw payload).mp he)
  · rw [if_pos hh]
  · next hd => rw [if_pos hh, exec_halted (decodedPacketIsTheEncoding _ _ hd).2 hf, ite_self]

/-- Settles O8: each of the four ends at a check for a halted BSC. -/
theorem haltedTakesNoStep : Obligations.HaltedTakesNoStep := by
  intro s rest hf
  have hfault : ({ s with inputs := rest } : State).fault ≠ none := hf
  refine ⟨fun hi => ?_, fun hi => ?_, fun bits hi => ?_, fun p cw payload hi hl => ?_⟩
  · rw [step_of_no_input hi, microStep_halted hf]
  · rw [step_of_cons hi]
    exact microStep_halted hfault
  · rw [step_of_cons hi]
    exact arriveWire_halted hfault bits
  · rw [step_of_cons hi]
    exact arrive_halted hfault hl p

/-! ### The fault record over one step (R301, R350) -/

/-- From `s` to `t` the record is kept, or a BSC that had none raises a fault and does nothing else. -/
def State.KeepsOrRaises (s t : State) : Prop :=
  t.fault = s.fault ∨ (s.fault = none ∧ ∃ code word, t = s.raise code word)

theorem exec_keepsOrRaises {i : Instr} {s t : State} (h : exec i s = .next t) :
    s.KeepsOrRaises t := by
  obtain ⟨-, ⟨-, rfl⟩ | ⟨hf, -, hrule⟩ | ⟨hf, -, rfl⟩⟩ := exec_next_cases h
  · exact .inl rfl
  · exact (ruleOf_fault_cases hrule).imp_right fun ⟨code, ht⟩ => ⟨hf, code, _, ht⟩
  · exact .inr ⟨hf, _, _, rfl⟩

theorem microStep_keepsOrRaises {s t : State} (h : microStep s = .next t) : s.KeepsOrRaises t := by
  by_cases hf : s.fault = none
  · exact (microStep_fault_cases h).imp_right fun ⟨_, ht⟩ => ⟨hf, _, _, ht⟩
  · rw [microStep_halted hf] at h
    exact .inl (Host.Outcome.next.inj h ▸ rfl)

/-- Only reset does more to the record than to keep it or to write one where there was none. -/
theorem step_fault_cases {s t : State} (h : step s = .next t) :
    s.afterInput.KeepsOrRaises t ∨
    ∃ rest, s.inputs = .reset :: rest ∧ t = s.afterInput.restart := by
  rcases step_next_cases h with ⟨-, h⟩ | ⟨i, -, h⟩ | ⟨-, -, rfl⟩ |
    ⟨hf, p, cw, payload, rest, code, -, -, rfl⟩ | ⟨-, bits, rest, -, rfl⟩ |
    ⟨level, rest, -, rfl⟩ | hreset
  · exact .inl (microStep_keepsOrRaises h)
  · exact .inl (exec_keepsOrRaises h)
  · exact .inl (.inl rfl)
  · exact .inl (.inr ⟨hf, code, cw, rfl⟩)
  · exact .inl (.inl (receiveAll_fault _ _))
  · exact .inl (.inl rfl)
  · exact .inr hreset

/-- Settles O9: a record that was not there before is written by `raise`. -/
theorem raisingChangesOnlyTheRecord : Obligations.RaisingChangesOnlyTheRecord := by
  intro s t hf h ht
  obtain (hkept | ⟨-, code, word, rfl⟩) | ⟨rest, -, rfl⟩ := step_fault_cases h
  · exact absurd (hkept.trans hf) ht
  · rfl
  · exact absurd rfl ht

/-- Settles O10: a BSC with a record raises nothing, so short of reset the record is kept. -/
theorem onlyResetClearsFault : Obligations.OnlyResetClearsFault := by
  intro s t hf h
  obtain (hkept | ⟨hnone, -⟩) | ⟨rest, hi, -⟩ := step_fault_cases h
  · exact .inl hkept
  · exact absurd hnone hf
  · exact .inr ⟨rest, hi⟩

/-! ### The queue during a drain (R258, R303) -/

/-- A drain lets in the interrupt events alone (R303). -/
theorem portOf_eq_irq_of_drain {i : Instr} (h : Coop.drain.admitsInstr i = true) :
    portOf i = .irq := by
  cases hp : portOf i with
  | irq => rfl
  | coop =>
    have hrejected := (admitsInstr_eq_false_iff hp .drain).mpr (.inr (.inr (.inl rfl)))
    simp [hrejected] at h

/-- No interrupt event touches the queue (R81). -/
theorem ruleOf_irq_txContents {i : Instr} {s t : State} (h : ruleOf i s = .next t)
    (hp : portOf i = .irq) : t.txContents = s.txContents := by
  rw [(ruleOf_irq_frame h hp).1]
  exact txContents_of_same rfl rfl rfl rfl

theorem exec_draining_txContents {i : Instr} {s t : State} (hc : s.coop = .drain)
    (h : exec i s = .next t) : t.txContents = s.txContents := by
  obtain ⟨-, ⟨-, rfl⟩ | ⟨-, ha, hrule⟩ | ⟨-, -, rfl⟩⟩ := exec_next_cases h
  · rfl
  · exact ruleOf_irq_txContents hrule (portOf_eq_irq_of_drain (hc ▸ ha))
  · rfl

/-- A drain micro-step leaves the queue, or its tail (R257). -/
theorem drainStep_txContents {s t : State} (h : s.drainStep = .next t) :
    t.txContents <:+ s.txContents := by
  obtain ⟨-, rfl⟩ | ⟨-, -, -, rfl⟩ | ⟨-, -, rfl⟩ := drainStep_next_cases h
  · exact List.suffix_rfl
  · exact (txContents_dequeue _ 1).symm ▸ List.drop_suffix 1 _
  · exact List.suffix_rfl

theorem microStep_draining_txContents {s t : State} (hc : s.coop = .drain)
    (h : microStep s = .next t) : t.txContents <:+ s.txContents := by
  by_cases hf : s.fault = none
  · exact drainStep_txContents (microStep_drain hf hc ▸ h)
  · rw [microStep_halted hf] at h
    exact Host.Outcome.next.inj h ▸ List.suffix_rfl

theorem receiveAll_txContents (s : State) (bytes : List Byte) :
    (s.receiveAll bytes).txContents = s.txContents := by
  rw [receiveAll_frame]
  exact txContents_of_same rfl rfl rfl rfl

theorem afterInput_txContents (s : State) : s.afterInput.txContents = s.txContents :=
  txContents_of_same rfl rfl rfl rfl

/-- Settles O59: only the micro-step and the interrupt events get past R303, and of these only the
micro-step touches the queue. -/
theorem nothingIsAddedDuringADrain : Obligations.NothingIsAddedDuringADrain := by
  intro s t _ hc h
  replace hc : s.afterInput.coop = .drain := hc
  rw [← afterInput_txContents s]
  rcases step_next_cases h with ⟨-, h⟩ | ⟨i, -, h⟩ | ⟨-, -, rfl⟩ |
    ⟨-, p, cw, payload, rest, code, -, -, rfl⟩ | ⟨-, bits, rest, -, rfl⟩ |
    ⟨level, rest, -, rfl⟩ | ⟨rest, hi, -⟩
  · exact .inl (microStep_draining_txContents hc h)
  · exact .inl (of_eq (exec_draining_txContents hc h))
  · exact .inl List.suffix_rfl
  · exact .inl (of_eq (txContents_of_same rfl rfl rfl rfl))
  · exact .inl (of_eq (receiveAll_txContents _ _))
  · exact .inl (of_eq (txContents_of_same rfl rfl rfl rfl))
  · exact .inr ⟨rest, hi⟩

end Sys2Proof.Machine

/-! ## Reset and hazards (spec/70_reset_and_hazards.md): the reset input (R350). -/

namespace Sys2Proof.Machine

open Sys2Proof

/-- Settles O13: no state, halted or busy, keeps the step from taking the input `reset`, and that is
`State.restart` with the inputs behind it. -/
theorem resetInputRestarts : Obligations.ResetInputRestarts := by
  intro s rest hi
  calc step s = takeInput .reset { s with inputs := rest } := step_of_cons hi
    _ = .next (State.restart { s with inputs := rest }) := rfl

end Sys2Proof.Machine
